-- ==== Sys2Proof/Word.lean ====
section
/-!
DEFINITION. The data types of the LS-8 CORE that the spec treats as bits or as an index
(00_scope.md R7, R8, R11).
-/

namespace Sys2Proof

/-- A register, memory cell or operand byte: `XLEN = 8` bits, unsigned (R7, R16). -/
abbrev Byte := BitVec 8

/-- A program-counter value: `PC_WIDTH = 9` bits (R11, R26). -/
abbrev PcWord := BitVec 9

/-- A register that exists: an index 0 to 7 (R8, R20). -/
abbrev RegIndex := Fin 8

end Sys2Proof
end

