-- ==== Sys2Proof/Config.lean ====
section
/-!
DEFINITION. The implementation parameters of 00_scope.md section 3 (R8 to R13).
The spec leaves none of them open (R14) and draws no value (R117), so this file has no free value. The
parameters that 92_eei_decisions.md names stand at their defaults (DESIGN CHOICE, log entry 12).
-/

namespace Sys2Proof.Config

/-- `MEM_SIZE`: memory cells, at addresses 0 to 255 (R9). -/
@[simp] def memSize : Nat := 256

/-- `SP_INDEX`: the register that is the stack pointer (R10, R21). -/
@[simp] def spIndex : RegIndex := 7

/-- `SP_RESET`: the stack pointer's reset value (R10, R25). -/
@[simp] def spReset : Byte := 0xF4#8

/-- `MAX_OPERANDS`: the most operand bytes a step fetches (R13, decision D14). -/
@[simp] def maxOperands : Nat := 2

/-- `PROGRAM_BASE`: where the program image is placed (R13, R260). -/
@[simp] def programBase : Nat := 0

/-- The first and last address of the window the trace facility shows as the stack region
(R58, R237). -/
@[simp] def stackWindowFirst : Nat := 236
@[simp] def stackWindowLast : Nat := 243

end Sys2Proof.Config
end

