-- ==== Sys2Proof/Syntax.lean ====
section
/-!
DEFINITION. The fifteen instructions of the closed instruction set (00_scope.md R2, 30_encoding.md R76).
-/

namespace Sys2Proof

/-- One constructor per row of spec/opcode_table.json, with its operand bytes.
A register operand is the WHOLE operand byte, 0 to 255 (R75, decision D7): a byte above 7 is an
instruction too, and executing it raises OutOfRangeAccess (R79, R107). -/
inductive Instr where
  /-- HLT: halt (R160). -/
  | hlt
  /-- LDI Ra, imm: load immediate (R161). -/
  | ldi (ra imm : Byte)
  /-- PRN Ra: print a register (R162). -/
  | prn (ra : Byte)
  /-- PUSH Ra (R164). -/
  | push (ra : Byte)
  /-- POP Ra (R165). -/
  | pop (ra : Byte)
  /-- CALL Ra: call through a register (R190). -/
  | call (ra : Byte)
  /-- RET: return (R191). -/
  | ret
  /-- JMP Ra: jump through a register (R192). -/
  | jmp (ra : Byte)
  /-- JEQ Ra: jump if E is set (R193). -/
  | jeq (ra : Byte)
  /-- JNE Ra: jump if E is clear (R194). -/
  | jne (ra : Byte)
  /-- ADD Ra, Rb (R130). -/
  | add (ra rb : Byte)
  /-- SUB Ra, Rb (R131). -/
  | sub (ra rb : Byte)
  /-- MUL Ra, Rb (R132). -/
  | mul (ra rb : Byte)
  /-- DIV Ra, Rb (R133). -/
  | div (ra rb : Byte)
  /-- CMP Ra, Rb (R134). -/
  | cmp (ra rb : Byte)
deriving DecidableEq, Repr

/-- The register operands an instruction names, in the order they are checked: ra, then rb (R107). -/
def Instr.regOperands : Instr → List Byte
  | .hlt | .ret => []
  | .ldi ra _ => [ra]
  | .prn ra | .push ra | .pop ra | .call ra | .jmp ra | .jeq ra | .jne ra => [ra]
  | .add ra rb | .sub ra rb | .mul ra rb | .div ra rb | .cmp ra rb => [ra, rb]

/-- The listing name of a register: R0 to R7 (R81). That an operand byte above 7 is written R and its
decimal value, and R7 never as SP, is a DESIGN CHOICE (log entry 13). -/
def regListing (ra : Byte) : String := "R" ++ toString ra.toNat

/-- The spec's listing of an instruction (R81, decision D21: notation only), its immediate in decimal
(DESIGN CHOICE, log entry 13). -/
def Instr.listing : Instr → String
  | .hlt => "HLT"
  | .ldi ra imm => "LDI " ++ regListing ra ++ ", " ++ toString imm.toNat
  | .prn ra => "PRN " ++ regListing ra
  | .push ra => "PUSH " ++ regListing ra
  | .pop ra => "POP " ++ regListing ra
  | .call ra => "CALL " ++ regListing ra
  | .ret => "RET"
  | .jmp ra => "JMP " ++ regListing ra
  | .jeq ra => "JEQ " ++ regListing ra
  | .jne ra => "JNE " ++ regListing ra
  | .add ra rb => "ADD " ++ regListing ra ++ ", " ++ regListing rb
  | .sub ra rb => "SUB " ++ regListing ra ++ ", " ++ regListing rb
  | .mul ra rb => "MUL " ++ regListing ra ++ ", " ++ regListing rb
  | .div ra rb => "DIV " ++ regListing ra ++ ", " ++ regListing rb
  | .cmp ra rb => "CMP " ++ regListing ra ++ ", " ++ regListing rb

end Sys2Proof
end

