-- ==== Sys2Proof/WellFormed.lean ====
section
/-!
DEFINITION. When an instruction's operands are legal (30_encoding.md R75, R79; 10_state.md R24).
The decoder accepts ill-formed instructions as well: the check is made when they execute (R79).
-/

namespace Sys2Proof

/-- An operand byte that names a register: 0 to 7 (R24). -/
def namesRegister (ra : Byte) : Bool := decide (ra.toNat ≤ 7)

/-- Every register operand names a register; an immediate has no illegal value (R79). -/
def Instr.wellFormed (i : Instr) : Bool := i.regOperands.all namesRegister

/-- The first register operand that names no register, in the order ra, rb (R107). -/
def Instr.badRegister (i : Instr) : Option Byte := i.regOperands.find? (fun ra => !namesRegister ra)

end Sys2Proof
end

