-- ==== Sys2Proof/Decode.lean ====
section
/-!
DEFINITION. The opcode byte's fields, the decoder (total on any list of bytes, rejecting by name),
and the encoder (30_encoding.md R70 to R80).
-/

namespace Sys2Proof

/-- The defined opcodes, bit for bit as the table of R76 has them. -/
def Opcode.hlt  : Byte := 0b00000001#8
def Opcode.ldi  : Byte := 0b10000010#8
def Opcode.prn  : Byte := 0b01000111#8
def Opcode.push : Byte := 0b01000101#8
def Opcode.pop  : Byte := 0b01000110#8
def Opcode.call : Byte := 0b01010000#8
def Opcode.ret  : Byte := 0b00010001#8
def Opcode.jmp  : Byte := 0b01010100#8
def Opcode.jeq  : Byte := 0b01010101#8
def Opcode.jne  : Byte := 0b01010110#8
def Opcode.add  : Byte := 0b10100000#8
def Opcode.sub  : Byte := 0b10100001#8
def Opcode.mul  : Byte := 0b10100010#8
def Opcode.div  : Byte := 0b10100011#8
def Opcode.cmp  : Byte := 0b10100111#8

/-- N, the operand count `op[7:6]` (R70, 90_conflicts.md C1). -/
def operandCount (op : Byte) : Nat := (op.extractLsb' 6 2).toNat

/-- The instruction length `op[7:6] + 1`, in bytes (R71). -/
def instrLength (op : Byte) : Nat := operandCount op + 1

/-- A, the ALU flag `op[5]` (R70). -/
def aluFlag (op : Byte) : Bool := op.getLsbD 5

/-- P, the PC-setter flag `op[4]` (R70). -/
def pcSetterFlag (op : Byte) : Bool := op.getLsbD 4

/-- How many operand bytes a step fetches: N, and never more than two (R72, 90_conflicts.md C2). -/
def operandsFetched (op : Byte) : Nat := min (operandCount op) Config.maxOperands

/-- Why a list of bytes is no instruction. -/
inductive Reject where
  /-- There is no opcode byte: the step raises OutOfRangeAccess(FETCH) (R104). -/
  | noOpcode
  /-- The `k`-th operand byte (1 or 2) is missing: the step raises OutOfRangeAccess(OPERAND) (R105). -/
  | missingOperand (k : Nat)
  /-- An opcode with A = 1 that the ALU does not accept (R78, R112). -/
  | unsupportedAluOperation (op : Byte)
  /-- An opcode with A = 0 that the dispatch table does not hold (R78, R114). -/
  | unknownInstruction (op : Byte)
deriving DecidableEq, Repr

/-- The five opcodes the ALU accepts (R77); all have two operand bytes. -/
def aluInstr (op : Byte) : List Byte → Option Instr
  | [ra, rb] =>
    if op = Opcode.add then some (.add ra rb)
    else if op = Opcode.sub then some (.sub ra rb)
    else if op = Opcode.mul then some (.mul ra rb)
    else if op = Opcode.div then some (.div ra rb)
    else if op = Opcode.cmp then some (.cmp ra rb)
    else none
  | _ => none

/-- The ten opcodes of the dispatch table (R77), by their number of operand bytes (R74). -/
def dispatchInstr (op : Byte) : List Byte → Option Instr
  | [] =>
    if op = Opcode.hlt then some .hlt
    else if op = Opcode.ret then some .ret
    else none
  | [ra] =>
    if op = Opcode.prn then some (.prn ra)
    else if op = Opcode.push then some (.push ra)
    else if op = Opcode.pop then some (.pop ra)
    else if op = Opcode.call then some (.call ra)
    else if op = Opcode.jmp then some (.jmp ra)
    else if op = Opcode.jeq then some (.jeq ra)
    else if op = Opcode.jne then some (.jne ra)
    else none
  | [ra, imm] =>
    if op = Opcode.ldi then some (.ldi ra imm)
    else none
  | _ => none

/-- Dispatch of an opcode with its operand bytes: the ALU flag decides the route (R77, R108), and an
opcode its route does not hold is rejected by name, whatever its P flag (R78, 90_conflicts.md C3). -/
def decodeOpcode (op : Byte) (operands : List Byte) : Except Reject Instr :=
  if aluFlag op then
    match aluInstr op operands with
    | some i => .ok i
    | none => .error (.unsupportedAluOperation op)
  else
    match dispatchInstr op operands with
    | some i => .ok i
    | none => .error (.unknownInstruction op)

/-- The instruction at the head of a list of bytes, and the bytes after it. The rejections come in
the order of R228: a missing opcode, the first missing operand byte, then an illegal opcode. -/
def decode : List Byte → Except Reject (Instr × List Byte)
  | [] => .error .noOpcode
  | op :: rest =>
    if rest.length < operandsFetched op then
      .error (.missingOperand (rest.length + 1))
    else
      match decodeOpcode op (rest.take (operandsFetched op)) with
      | .ok i => .ok (i, rest.drop (operandsFetched op))
      | .error r => .error r

/-- Byte `k` of a number whose bit 0 is the least significant bit of the first byte. -/
def byteOf (w k : Nat) : Byte := BitVec.ofNat 8 (w / 2 ^ (8 * k))

/-- The bytes of a table word, in ascending addresses (R55), padded with zero operand bytes to the
longest instruction. -/
def tableBytes (nbits w : Nat) : List Byte :=
  let v := w % 2 ^ nbits
  [byteOf v 0, byteOf v 1, byteOf v 2]

/-- The instruction the decoder reads from a row's word, bit 0 being the least significant bit of
the opcode byte. -/
def decodeTableWord (nbits w : Nat) : Option Instr :=
  match decode (tableBytes nbits w) with
  | .ok (i, _) => some i
  | .error _ => none

/-- The opcode byte of an instruction (R76). -/
def Instr.opcode : Instr → Byte
  | .hlt => Opcode.hlt
  | .ldi _ _ => Opcode.ldi
  | .prn _ => Opcode.prn
  | .push _ => Opcode.push
  | .pop _ => Opcode.pop
  | .call _ => Opcode.call
  | .ret => Opcode.ret
  | .jmp _ => Opcode.jmp
  | .jeq _ => Opcode.jeq
  | .jne _ => Opcode.jne
  | .add _ _ => Opcode.add
  | .sub _ _ => Opcode.sub
  | .mul _ _ => Opcode.mul
  | .div _ _ => Opcode.div
  | .cmp _ _ => Opcode.cmp

/-- The operand bytes of an instruction, in the order of its format (R74). -/
def Instr.operands : Instr → List Byte
  | .hlt | .ret => []
  | .prn ra | .push ra | .pop ra | .call ra | .jmp ra | .jeq ra | .jne ra => [ra]
  | .ldi ra imm => [ra, imm]
  | .add ra rb | .sub ra rb | .mul ra rb | .div ra rb | .cmp ra rb => [ra, rb]

/-- The bytes of an instruction: the opcode, then its operand bytes (R74, R81). -/
def encode (i : Instr) : List Byte := i.opcode :: i.operands

end Sys2Proof
end

