-- ==== Sys2Proof/Machine/State.lean ====
section
/-!
DEFINITION. The architectural state of the CORE as plain data (10_state.md section 1), the causes a
step can raise, the stops of the interface, and the state at reset (70_reset_and_hazards.md R261).
-/

namespace Sys2Proof.Machine

/-- MEM, sparse: pairs of an address and a byte. `Memory.wf` (Ops.lean) is its canonical form. -/
abbrev Memory := List Host.Cell

/-- KIND of an out-of-range access, recorded in STOPINFO (R34, R221). -/
inductive AccessKind where
  /-- the opcode fetch, PC > 255 (R104) -/
  | fetch
  /-- an operand fetch above 255 (R105) -/
  | operand
  /-- a register operand byte above 7 (R107) -/
  | registerIndex
  /-- a CALL whose return address does not fit a byte (R190) -/
  | returnAddress
deriving DecidableEq, Repr

/-- What a step can raise, with its `info` (R17, R220, R221). Raising is no stop of the interface:
it is a NEXT state with the stop status written (R226; DEDUCED, log entry 2), see `State.raise`. -/
inductive Cause where
  /-- code 2 (R114, R222) -/
  | unknownInstruction (op : Byte)
  /-- code 3 (R112, R223) -/
  | unsupportedAluOperation (op : Byte)
  /-- code 4 (R224) -/
  | outOfRangeAccess (kind : AccessKind) (value : PcWord)
  /-- code 5 (R225) -/
  | divideByZero (op : Byte)
deriving DecidableEq, Repr

/-- Why `step` has no next state. -/
inductive Fault where
  /-- Raised by `step` alone, in a state with Running = 0: such a state has no step (R103, and
  93_implementation_defined.md item 22: stuck). Safe: the CORE does nothing there either.
  That the step answers a fault, not the state itself, is a DESIGN CHOICE (log entry 1). -/
  | stopped
deriving DecidableEq, Repr

/-- Why an instruction has no meaning. -/
inductive Refusal where
  /-- An arm of `exec` without a meaning. Safe. No arm of this model uses it. -/
  | notModelled (mnemonic : String)
deriving DecidableEq, Repr

/-- The state of the CORE: the table of 10_state.md section 1, and the observation stream of R261. -/
structure State where
  /-- R0 to R7; R7 is SP (R20, R21) -/
  regs      : Vector Byte 8
  /-- PC, 9 bits (R26) -/
  pc        : PcWord
  /-- FL: E is bit 0, G bit 1, L bit 2 (R30) -/
  fl        : Byte
  /-- Running, 1 bit (R32) -/
  running   : Bool
  /-- STOPCAUSE, 3 bits (R33, R220) -/
  stopCause : BitVec 3
  /-- STOPINFO, 12 bits: KIND in 11:9, VALUE in 8:0 (R34) -/
  stopInfo  : BitVec 12
  /-- MEM (R50, R51) -/
  mem       : Memory
  /-- the bytes PRN has emitted, oldest first (R163, R261) -/
  out       : List Byte
deriving DecidableEq, Repr

/-- The machine right after reset, before an image is placed: R261, with the empty image (DEDUCED from
R260 and R264, log entry 3). -/
def State.reset : State where
  regs      := #v[0#8, 0#8, 0#8, 0#8, 0#8, 0#8, 0#8, Config.spReset]
  pc        := 0#9
  fl        := 0#8
  running   := true
  stopCause := 0#3
  stopInfo  := 0#12
  mem       := []
  out       := []

/-- What one step answers. -/
abbrev StepOutcome := Host.Outcome State Fault Refusal

end Sys2Proof.Machine
end

