-- ==== Sys2Proof/Machine/Ops.lean ====
section
/-!
DEFINITION. The named operations over memory, registers, PC, the stack, the observation port and the
stop status; raising a cause (60_exceptions.md R226) as one shared operation; and the instruction
fetch. The CORE has no return from a fault (R229), so there is no operation for one.
-/

namespace Sys2Proof.Machine

/-! ## Memory (20_memory.md) -/

/-- What a cell that nothing has written reads as: 0 (R51). -/
def Memory.unlisted : Byte := 0#8

/-- The canonical form: addresses strictly rising, all of them addresses of MEM, and no entry equal
to what an unlisted address reads as. -/
abbrev Memory.wf (m : Memory) : Prop :=
  m.Pairwise (fun c d => c.1 < d.1) ∧ ∀ c ∈ m, c.1 < Config.memSize ∧ c.2 ≠ Memory.unlisted

/-- The byte at an address (R53). Every operation asks it for addresses 0 to 255 alone, by `read?` or by a
byte; above them a canonical memory gives 0 (DESIGN CHOICE, log entry 9). -/
def Memory.read : Memory → Nat → Byte
  | [], _ => Memory.unlisted
  | (k, w) :: rest, addr => if addr = k then w else Memory.read rest addr

/-- Put a byte in front of the cells above its address, unless it is what an unlisted one reads as. -/
def Memory.cons (addr : Nat) (v : Byte) (rest : Memory) : Memory :=
  if v = Memory.unlisted then rest else (addr, v) :: rest

/-- Write the byte at an address, and no other cell (R53). -/
def Memory.write : Memory → Nat → Byte → Memory
  | [], addr, v => Memory.cons addr v []
  | (k, w) :: rest, addr, v =>
    if addr < k then Memory.cons addr v ((k, w) :: rest)
    else if addr = k then Memory.cons addr v rest
    else (k, w) :: Memory.write rest addr v

/-- The byte at an address, or nothing where the address does not exist (R52). -/
def Memory.read? (m : Memory) (addr : Nat) : Option Byte :=
  if addr < Config.memSize then some (m.read addr) else none

/-- A memory that holds an image from an address upward, and nothing else (R260). -/
def Memory.ofImage : Nat → List Byte → Memory
  | _, [] => []
  | base, v :: vs => Memory.cons base v (Memory.ofImage (base + 1) vs)

/-- `MemRead(addr, 1)` at a data address, which is a byte and so always in range (R52, R53). -/
def State.load (s : State) (addr : Byte) : Byte := s.mem.read addr.toNat

/-- `MemWrite(addr, 1, v)` at a data address (R52, R53). -/
def State.store (s : State) (addr v : Byte) : State :=
  { s with mem := s.mem.write addr.toNat v }

/-! ## Registers and PC (10_state.md) -/

/-- `R[r]`. -/
def State.readReg (s : State) (r : RegIndex) : Byte := s.regs[r.val]

/-- `R[r] <- v`. No register is hardwired (R20). -/
def State.writeReg (s : State) (r : RegIndex) (v : Byte) : State :=
  { s with regs := s.regs.set r.val v }

/-- SP, another name for R7 (R21). -/
def State.sp (s : State) : Byte := s.readReg Config.spIndex

/-- `SP <- (SP - 1) mod 256` (R164, R190, decision D3). -/
def State.decSp (s : State) : State := s.writeReg Config.spIndex (s.sp - 1#8)

/-- `SP <- (SP + 1) mod 256` (R165, R191, decision D3). -/
def State.incSp (s : State) : State := s.writeReg Config.spIndex (s.sp + 1#8)

/-- `FL <- v`. -/
def State.setFl (s : State) (v : Byte) : State := { s with fl := v }

/-- `zext_9(v)` (R16). -/
def zext9 (v : Byte) : PcWord := v.setWidth 9

/-- `pc <- t`. -/
def State.setPc (s : State) (t : PcWord) : State := { s with pc := t }

/-- `pc <- PC + n`, in 9 bits (R110). -/
def State.advancePc (s : State) (n : Nat) : State := s.setPc (s.pc + BitVec.ofNat 9 n)

/-- The loop's advance after an instruction that completed: by its length, unless its opcode has the
PC-setter flag (R100, R110, R111). -/
def State.autoAdvance (s : State) (op : Byte) : State :=
  if pcSetterFlag op then s else s.advancePc (instrLength op)

/-! ## The observation port -/

/-- `Emit(v)`: one event, after the earlier ones (R163). -/
def State.emit (s : State) (v : Byte) : State := { s with out := s.out ++ [v] }

/-! ## Stopping (60_exceptions.md) -/

/-- `stop HALT`: Running <- 0, STOPCAUSE <- HALT (code 1); STOPINFO is not written (R160). -/
def State.halt (s : State) : State := { s with running := false, stopCause := 1#3 }

/-- The STOPCAUSE code (R220). -/
def Cause.code : Cause → BitVec 3
  | .unknownInstruction _ => 2#3
  | .unsupportedAluOperation _ => 3#3
  | .outOfRangeAccess _ _ => 4#3
  | .divideByZero _ => 5#3

/-- The KIND code (R34). -/
def AccessKind.code : AccessKind → BitVec 3
  | .fetch => 1#3
  | .operand => 2#3
  | .registerIndex => 3#3
  | .returnAddress => 4#3

/-- KIND, 0 for every cause but an out-of-range access (R34, R221). -/
def Cause.kind : Cause → BitVec 3
  | .outOfRangeAccess k _ => k.code
  | .unknownInstruction _ | .unsupportedAluOperation _ | .divideByZero _ => 0#3

/-- VALUE; an opcode byte is zero-extended (R34, R221). -/
def Cause.value : Cause → BitVec 9
  | .outOfRangeAccess _ v => v
  | .unknownInstruction op | .unsupportedAluOperation op | .divideByZero op => zext9 op

/-- The STOPINFO word: KIND in bits 11:9, VALUE in bits 8:0 (R34). -/
def Cause.info (c : Cause) : BitVec 12 := c.kind ++ c.value

/-- `raise`: the three writes of a fault and no other (R226). -/
def State.raise (s : State) (c : Cause) : State :=
  { s with running := false, stopCause := c.code, stopInfo := c.info }

/-- KIND and VALUE as STOPINFO holds them (R34). -/
def State.stopKind (s : State) : BitVec 3 := s.stopInfo.extractLsb' 9 3
def State.stopValue (s : State) : BitVec 9 := s.stopInfo.extractLsb' 0 9

/-- How an instruction's rule ends the step: on a raise the state of the step's start with the stop
status (R226), otherwise the rule's state with the loop's advance (R110, R111). -/
def conclude (op : Byte) (s : State) : Except Cause State → StepOutcome
  | .ok t => .next (t.autoAdvance op)
  | .error c => .next (s.raise c)

/-! ## The instruction fetch (40_execution_cycle.md) -/

/-- At most `n` bytes from an address upward, stopping at the first address above 255. -/
def Memory.fetchFrom (m : Memory) : Nat → Nat → List Byte
  | _, 0 => []
  | addr, n + 1 =>
    match m.read? addr with
    | none => []
    | some v => v :: m.fetchFrom (addr + 1) n

/-- The bytes a step fetches: the opcode at PC and the operand bytes it asks for, as far as their
addresses exist (R102, R105). A missing one is what `decode` rejects by name. -/
def State.fetch (s : State) : List Byte :=
  match s.mem.read? s.pc.toNat with
  | none => []
  | some op => op :: s.mem.fetchFrom (s.pc.toNat + 1) (operandsFetched op)

/-- The cause a rejected fetch or opcode raises, with its info (R104, R105, R112, R114, R221). The operand
address it records is the first one above 255 (DEDUCED from R105, log entry 5). -/
def rejectCause (pc : PcWord) : Reject → Cause
  | .noOpcode => .outOfRangeAccess .fetch pc
  | .missingOperand k => .outOfRangeAccess .operand (pc + BitVec.ofNat 9 k)
  | .unsupportedAluOperation op => .unsupportedAluOperation op
  | .unknownInstruction op => .unknownInstruction op

/-- Put bytes into memory at consecutive addresses; an address above 255 takes none (DESIGN CHOICE, log
entry 3: only `withFetchWord` uses it). -/
def Memory.place : Memory → Nat → List Byte → Memory
  | m, _, [] => m
  | m, addr, v :: vs =>
    Memory.place (if addr < Config.memSize then m.write addr v else m) (addr + 1) vs

end Sys2Proof.Machine
end

