-- ==== Sys2Proof/Machine/Flags.lean ====
section
/-!
DEFINITION. The flag register's bits and the flags of a comparison (10_state.md R30, 41_alu.md R134).
No other operation computes a flag (R31).
-/

namespace Sys2Proof.Machine

/-- FL with E alone set. -/
def flEqual : Byte := 0b00000001#8
/-- FL with G alone set. -/
def flGreater : Byte := 0b00000010#8
/-- FL with L alone set. -/
def flLess : Byte := 0b00000100#8

/-- E, bit 0 of FL (R12). -/
def State.flagE (s : State) : Bool := s.fl.getLsbD 0
/-- G, bit 1 of FL (R12). -/
def State.flagG (s : State) : Bool := s.fl.getLsbD 1
/-- L, bit 2 of FL (R12). -/
def State.flagL (s : State) : Bool := s.fl.getLsbD 2

/-- FL after comparing `x` with `y`, both unsigned: exactly one of E, G and L (R134). -/
def compareFlags (x y : Byte) : Byte :=
  if x.toNat = y.toNat then flEqual
  else if x.toNat > y.toNat then flGreater
  else flLess

end Sys2Proof.Machine
end

