-- ==== Sys2Proof/Machine/Operands.lean ====
section
/-!
DEFINITION. The operand forms (30_encoding.md R74, R75): a register operand, checked before any read
or write (40_execution_cycle.md R107), and a pair of them. The immediate of LDI is its byte as it stands.
-/

namespace Sys2Proof.Machine

/-- `checkreg(i)`: the register an operand byte names, or OutOfRangeAccess(REGISTER_INDEX, i) (R107). -/
def checkreg (i : Byte) : Except Cause RegIndex :=
  if h : i.toNat < 8 then .ok ⟨i.toNat, h⟩
  else .error (.outOfRangeAccess .registerIndex (zext9 i))

/-- A rule with one register operand: checked, then the rule (R107, R113). -/
def withReg (ra : Byte) (rule : RegIndex → Except Cause State) : Except Cause State :=
  match checkreg ra with
  | .error c => .error c
  | .ok a => rule a

/-- A rule with two register operands: ra is checked, then rb, then the rule (R107, R137). -/
def withRegs (ra rb : Byte) (rule : RegIndex → RegIndex → Except Cause State) :
    Except Cause State :=
  withReg ra fun a => withReg rb fun b => rule a b

end Sys2Proof.Machine
end

