-- ==== Sys2Proof/Machine/Alu.lean ====
section
/-!
DEFINITION. The ALU instructions ADD, SUB, MUL, DIV and CMP (41_alu.md R130 to R138).
Results are computed on mathematical integers and reduced modulo 256 at the end (R16, R135, R136).
-/

namespace Sys2Proof.Machine

/-- `(x + y) mod 256` (R130). -/
def aluAdd (x y : Byte) : Byte := BitVec.ofNat 8 (x.toNat + y.toNat)

/-- `(x - y) mod 256`, 0 to 255 for a negative difference too (R131, R136). -/
def aluSub (x y : Byte) : Byte := BitVec.ofInt 8 ((x.toNat : Int) - (y.toNat : Int))

/-- `(x * y) mod 256`, the low 8 bits of the product (R132). -/
def aluMul (x y : Byte) : Byte := BitVec.ofNat 8 (x.toNat * y.toNat)

/-- `x // y`, the truncated unsigned quotient (R133, decision D4). Only used with `y` not 0. -/
def aluDiv (x y : Byte) : Byte := BitVec.ofNat 8 (x.toNat / y.toNat)

/-- The rule of ADD, SUB and MUL: check ra and rb, read both, write R[a] (R135, R137, R138). -/
def aluWrite (f : Byte → Byte → Byte) (ra rb : Byte) (s : State) : Except Cause State :=
  withRegs ra rb fun a b => .ok (s.writeReg a (f (s.readReg a) (s.readReg b)))

/-- ADD (R130). -/
def execAdd (ra rb : Byte) (s : State) : StepOutcome :=
  conclude Opcode.add s (aluWrite aluAdd ra rb s)

/-- SUB (R131). -/
def execSub (ra rb : Byte) (s : State) : StepOutcome :=
  conclude Opcode.sub s (aluWrite aluSub ra rb s)

/-- MUL (R132). -/
def execMul (ra rb : Byte) (s : State) : StepOutcome :=
  conclude Opcode.mul s (aluWrite aluMul ra rb s)

/-- DIV: a zero divisor raises DivideByZero, after both register checks (R133, R228). -/
def execDiv (ra rb : Byte) (s : State) : StepOutcome :=
  conclude Opcode.div s <| withRegs ra rb fun a b =>
    if s.readReg b = 0#8 then .error (.divideByZero Opcode.div)
    else .ok (s.writeReg a (aluDiv (s.readReg a) (s.readReg b)))

/-- CMP: FL is written whole, no register is (R134). -/
def execCmp (ra rb : Byte) (s : State) : StepOutcome :=
  conclude Opcode.cmp s <| withRegs ra rb fun a b =>
    .ok (s.setFl (compareFlags (s.readReg a) (s.readReg b)))

end Sys2Proof.Machine
end

