-- ==== Sys2Proof/Machine/Control.lean ====
section
/-!
DEFINITION. The control-transfer instructions CALL, RET, JMP, JEQ and JNE (43_dispatch_control.md
R190 to R195). Their opcodes have the PC-setter flag: each rule writes PC itself (R111).
-/

namespace Sys2Proof.Machine

/-- CALL's return address `PC + 2`, as a number: 256 does not fit the byte it is stored in (R190). -/
def returnAddress (s : State) : Nat := s.pc.toNat + 2

/-- CALL: the return address is checked after ra and before any write; R[a] is read after SP is
decremented (R190, decisions D8 and D27). -/
def execCall (ra : Byte) (s : State) : StepOutcome :=
  conclude Opcode.call s <| withReg ra fun a =>
    if returnAddress s > 255 then
      .error (.outOfRangeAccess .returnAddress (BitVec.ofNat 9 (returnAddress s)))
    else
      .ok ((s.decSp.store s.decSp.sp (BitVec.ofNat 8 (returnAddress s))).setPc
        (zext9 (s.decSp.readReg a)))

/-- RET (R191). -/
def execRet (s : State) : StepOutcome :=
  conclude Opcode.ret s (.ok (s.setPc (zext9 (s.load s.sp))).incSp)

/-- JMP (R192). -/
def execJmp (ra : Byte) (s : State) : StepOutcome :=
  conclude Opcode.jmp s <| withReg ra fun a => .ok (s.setPc (zext9 (s.readReg a)))

/-- The rule of JEQ and JNE: ra is checked whether or not the jump is taken, and one that is not
taken advances past its own two bytes (R107, R111, R193, R194). -/
def jumpIf (taken : Bool) (ra : Byte) (s : State) : Except Cause State :=
  withReg ra fun a => .ok (if taken then s.setPc (zext9 (s.readReg a)) else s.advancePc 2)

/-- JEQ: taken when E is set (R193). -/
def execJeq (ra : Byte) (s : State) : StepOutcome :=
  conclude Opcode.jeq s (jumpIf s.flagE ra s)

/-- JNE: taken when E is clear (R194). -/
def execJne (ra : Byte) (s : State) : StepOutcome :=
  conclude Opcode.jne s (jumpIf (!s.flagE) ra s)

end Sys2Proof.Machine
end

