-- ==== Sys2Proof/Machine/Data.lean ====
section
/-!
DEFINITION. The dispatch instructions without control transfer: HLT, LDI, PRN, PUSH and POP
(42_dispatch_data.md R160 to R165). Reads and writes stand in the order of the rule's pseudocode (R113).
-/

namespace Sys2Proof.Machine

/-- HLT: the step completes, so PC advances past the opcode too (R160, R110). -/
def execHlt (s : State) : StepOutcome :=
  conclude Opcode.hlt s (.ok s.halt)

/-- LDI (R161). -/
def execLdi (ra imm : Byte) (s : State) : StepOutcome :=
  conclude Opcode.ldi s <| withReg ra fun a => .ok (s.writeReg a imm)

/-- PRN (R162, R163). -/
def execPrn (ra : Byte) (s : State) : StepOutcome :=
  conclude Opcode.prn s <| withReg ra fun a => .ok (s.emit (s.readReg a))

/-- PUSH: R[a] is read after SP is decremented (R164, decision D27). -/
def execPush (ra : Byte) (s : State) : StepOutcome :=
  conclude Opcode.push s <| withReg ra fun a =>
    .ok (s.decSp.store s.decSp.sp (s.decSp.readReg a))

/-- POP: SP is read for the increment after R[a] is written (R165, decision D27). -/
def execPop (ra : Byte) (s : State) : StepOutcome :=
  conclude Opcode.pop s <| withReg ra fun a =>
    .ok (s.writeReg a (s.load s.sp)).incSp

end Sys2Proof.Machine
end

