-- ==== Sys2Proof/Machine/Step.lean ====
section
/-! DEFINITION. One step of the CORE (40_execution_cycle.md R100), and where its next instruction is
fetched from. -/

namespace Sys2Proof.Machine

/-- Fetch, decode, dispatch. A state with Running = 0 has no step (R103); a fetch or an opcode that
`decode` rejects raises its cause, and nothing else is written (R226). -/
def step (s : State) : Host.Outcome State Fault Refusal :=
  if s.running then
    match decode s.fetch with
    | .ok (i, _) => exec i s
    | .error r => .next (s.raise (rejectCause s.pc r))
  else .fault .stopped

/-- The state with an instruction's bytes stored at PC, where the next step fetches (R102); nothing
else changes. It stands for the load of a program (DESIGN CHOICE, log entry 3). The next step runs it in a state with Running = 1 and PC at most 253, reset among them. -/
def State.withFetchWord (s : State) (nbits w : Nat) : State :=
  { s with mem := s.mem.place s.pc.toNat (tableBytes nbits w) }

end Sys2Proof.Machine
end

