-- ==== Sys2Proof/Machine/HostView.lean ====
section
/-!
DEFINITION. What the host reads of the CORE between steps (70_reset_and_hazards.md R265, R266): the
status interface, the view, the OUT events and the trace view (60_exceptions.md R237). All are read-only:
functions of a state. CREATE, the host's one write, is in Loader.lean.
-/

namespace Sys2Proof.Machine

/-- STATUS: Running, STOPCAUSE, STOPINFO and PC (R266). -/
structure Status where
  running   : Bool
  stopCause : BitVec 3
  stopInfo  : BitVec 12
  pc        : PcWord
deriving DecidableEq, Repr

/-- The status interface (R266). -/
def State.status (s : State) : Status := ⟨s.running, s.stopCause, s.stopInfo, s.pc⟩

/-- VIEW: R0 to R7, FL and MEM[0..255] (R266). -/
structure View where
  regs : Vector Byte 8
  fl   : Byte
  mem  : List Byte
deriving DecidableEq, Repr

/-- The bytes at `n` addresses from `base` upward. -/
def State.memWindow (s : State) (base n : Nat) : List Byte :=
  (List.range n).map fun k => s.mem.read (base + k)

/-- The view (R266). -/
def State.view (s : State) : View := ⟨s.regs, s.fl, s.memWindow 0 Config.memSize⟩

/-- The OUT events so far, in program order (R265, R163). -/
def State.events (s : State) : List Byte := s.out

/-- The stack window the trace facility prints: addresses 236 to 243 (R237, R58). -/
def State.stackWindow (s : State) : List Byte :=
  s.memWindow Config.stackWindowFirst (Config.stackWindowLast - Config.stackWindowFirst + 1)

/-- What the trace facility prints of a state: PC, a window of memory, all registers and the stack
window (R237). Which window of memory is the host's choice, `base` and `n` (DESIGN CHOICE, log entry
11). -/
structure Trace where
  pc    : PcWord
  mem   : List Byte
  regs  : Vector Byte 8
  stack : List Byte
deriving DecidableEq, Repr

/-- The trace view (R237). -/
def State.trace (s : State) (base n : Nat) : Trace :=
  ⟨s.pc, s.memWindow base n, s.regs, s.stackWindow⟩

end Sys2Proof.Machine
end

