-- ==== Sys2Proof/Machine/Loader.lean ====
section
/-!
DEFINITION. How a program comes into the machine: CREATE(img) (70_reset_and_hazards.md R260 to R264)
and, outside the CORE (00_scope.md R4), the loader's text format and the command line (30_encoding.md
R90 to R94). Texts are lists of characters.
-/

namespace Sys2Proof.Machine

/-- CREATE(img): the start state of R261, the image placed from address 0 upward and every other cell
0; an image longer than MEM is refused and no machine exists (R93, R260). -/
def State.create (img : List Byte) : Option State :=
  if img.length ≤ Config.memSize then
    some { State.reset with mem := Memory.ofImage Config.programBase img }
  else none

/-- The errors of the host side, raised before a machine exists (R230). -/
inductive HostError where
  /-- not exactly one argument on the command line (R94) -/
  | invalidProgramArgument
  /-- a line that is not 8 binary digits, or an image of more than 256 bytes (R93) -/
  | programLoadParseError
deriving DecidableEq, Repr

/-- The lines of a text, split at the newline character (DESIGN CHOICE, log entry 4). -/
def splitLines : List Char → List (List Char)
  | [] => [[]]
  | c :: cs =>
    if c = '\n' then [] :: splitLines cs
    else
      match splitLines cs with
      | [] => [[c]]
      | line :: lines => (c :: line) :: lines

/-- A line without its comment: everything from `#` on is removed (R90). -/
def stripComment (line : List Char) : List Char := line.takeWhile (fun c => c ≠ '#')

/-- A line without the white space around it (R90): space, tab, carriage return and newline (DESIGN
CHOICE, log entry 4). -/
def trimSpace (line : List Char) : List Char :=
  ((line.dropWhile Char.isWhitespace).reverse.dropWhile Char.isWhitespace).reverse

/-- One binary digit. -/
def binaryDigit (c : Char) : Option Nat :=
  if c = '0' then some 0 else if c = '1' then some 1 else none

/-- Digits read as an unsigned binary number, the most significant first. -/
def binaryNumber : Nat → List Char → Option Nat
  | acc, [] => some acc
  | acc, c :: cs =>
    match binaryDigit c with
    | none => none
    | some d => binaryNumber (2 * acc + d) cs

/-- One line of the text, stripped: exactly 8 characters `0` or `1`, one byte (R91, decision D20). -/
def parseByte (line : List Char) : Option Byte :=
  if line.length = 8 then (binaryNumber 0 line).map (BitVec.ofNat 8) else none

/-- The lines left after comments, white space and empty lines are removed (R90). -/
def contentLines (text : List Char) : List (List Char) :=
  ((splitLines text).map fun line => trimSpace (stripComment line)).filter (fun line => line ≠ [])

/-- The program image a text stands for: the k-th line is the k-th byte (R92); one bad line, or more
than 256 bytes, fails the whole load (R93). -/
def parseProgram (text : List Char) : Except HostError (List Byte) :=
  match (contentLines text).mapM parseByte with
  | none => .error .programLoadParseError
  | some img => if img.length ≤ Config.memSize then .ok img else .error .programLoadParseError

/-- Boot in the order of R264: the command line, the text of the program file it names, then the
machine instance with the image placed. `args` are the arguments after the command's own name, and
`text` is what the named file holds (DESIGN CHOICE, log entry 10). -/
def boot (args : List (List Char)) (text : List Char) : Except HostError State :=
  match args with
  | [_] =>
    match parseProgram text with
    | .error e => .error e
    | .ok img =>
      match State.create img with
      | none => .error .programLoadParseError
      | some s => .ok s
  | _ => .error .invalidProgramArgument

/-- A byte as the loader's text writes it: 8 binary digits, the most significant first (R91). -/
def byteDigits (v : Byte) : List Char :=
  (List.range 8).map fun k => if v.getLsbD (7 - k) then '1' else '0'

/-- An image as the loader's text writes it: one byte a line (R92). -/
def imageText : List Byte → List Char
  | [] => []
  | v :: vs => byteDigits v ++ '\n' :: imageText vs

end Sys2Proof.Machine
end

