-- ==== Sys2Proof/Safety.lean ====
section
/-!
DEFINITION. The terms the statements use: the start states and reachable states, the invariant of the
machine, how a run ends (R267), what a step leaves unchanged, the causes that apply to a step in the
order of R228, and the execution cycle of R100 written with the opcodes as the spec writes them.
-/

namespace Sys2Proof.Machine

/-! ## Runs -/

/-- A state some run of some program image reaches: a start state (R261) or the state after a step. -/
inductive Reachable : State → Prop where
  | start {img : List Byte} {s : State} (h : State.create img = some s) : Reachable s
  | step {s t : State} (hs : Reachable s) (h : Machine.step s = .next t) : Reachable t

/-- The run has ended normally: Running = 0 with STOPCAUSE = HALT (R267). -/
def State.endedNormally (s : State) : Prop := s.running = false ∧ s.stopCause = 1#3

/-- The run has ended on a fault: Running = 0 with any other STOPCAUSE (R267). -/
def State.endedOnFault (s : State) : Prop := s.running = false ∧ s.stopCause ≠ 1#3

/-! ## What a step leaves unchanged -/

/-- Every register but the listed ones is unchanged. -/
def SameRegsExcept (s t : State) (written : List RegIndex) : Prop :=
  ∀ r : RegIndex, r ∉ written → t.readReg r = s.readReg r

/-- Every byte of memory reads as before. -/
def SameMemory (s t : State) : Prop := ∀ addr : Nat, t.mem.read addr = s.mem.read addr

/-- Every byte of memory but the one at `a` reads as before. -/
def SameMemoryExcept (s t : State) (a : Byte) : Prop :=
  ∀ addr : Nat, addr ≠ a.toNat → t.mem.read addr = s.mem.read addr

/-- The stop status and Running are unchanged. -/
def SameStatus (s t : State) : Prop :=
  t.running = s.running ∧ t.stopCause = s.stopCause ∧ t.stopInfo = s.stopInfo

/-- Everything but Running, STOPCAUSE and STOPINFO is unchanged (R226). -/
def SameButStatus (s t : State) : Prop :=
  t.regs = s.regs ∧ t.pc = s.pc ∧ t.fl = s.fl ∧ t.mem = s.mem ∧ t.out = s.out

/-! ## The execution cycle, with the opcodes as the spec writes them -/

/-- The ALU opcodes (R77). -/
def aluOpcodes : List Byte := [0xA0#8, 0xA1#8, 0xA2#8, 0xA3#8, 0xA7#8]

/-- The dispatch table's opcodes (R100). -/
def tableOpcodes : List Byte :=
  [0x01#8, 0x82#8, 0x47#8, 0x45#8, 0x46#8, 0x50#8, 0x11#8, 0x54#8, 0x55#8, 0x56#8]

/-- The fields of an opcode as numbers: N, and the bits A and P (R70). -/
def fieldN (op : Byte) : Nat := op.toNat / 64
def fieldA (op : Byte) : Nat := op.toNat / 32 % 2
def fieldP (op : Byte) : Nat := op.toNat / 16 % 2

/-- The instruction of a defined opcode with the operand bytes `a` and `b` (the table of R76). -/
def opcodeInstr (op a b : Byte) : Option Instr :=
  (([(0x01#8, .hlt), (0x82#8, .ldi a b), (0x47#8, .prn a), (0x45#8, .push a), (0x46#8, .pop a),
     (0x50#8, .call a), (0x11#8, .ret), (0x54#8, .jmp a), (0x55#8, .jeq a), (0x56#8, .jne a),
     (0xA0#8, .add a b), (0xA1#8, .sub a b), (0xA2#8, .mul a b), (0xA3#8, .div a b),
     (0xA7#8, .cmp a b)] : List (Byte × Instr)).find? fun row => row.1 == op).map (·.2)

/-- The step of R100, phase by phase: opcode fetch, operand fetches, dispatch. -/
def cycleStep (s : State) : StepOutcome :=
  let pc := s.pc.toNat
  if s.running = false then .fault .stopped
  else if pc > 255 then .next (s.raise (.outOfRangeAccess .fetch s.pc))
  else
    let op := s.mem.read pc
    if fieldN op ≥ 1 ∧ pc + 1 > 255 then
      .next (s.raise (.outOfRangeAccess .operand (BitVec.ofNat 9 (pc + 1))))
    else if fieldN op ≥ 2 ∧ pc + 2 > 255 then
      .next (s.raise (.outOfRangeAccess .operand (BitVec.ofNat 9 (pc + 2))))
    else
      match opcodeInstr op (s.mem.read (pc + 1)) (s.mem.read (pc + 2)) with
      | some i => exec i s
      | none =>
        if fieldA op = 1 then .next (s.raise (.unsupportedAluOperation op))
        else .next (s.raise (.unknownInstruction op))

/-! ## The causes that apply to a step, in the order of R228 -/

/-- A cause where its condition holds. -/
def causeIf (p : Prop) [Decidable p] (c : Cause) : List Cause := if p then [c] else []

/-- Items 1 to 3 of R228: the fetch of the opcode, the fetches of the operand bytes, an opcode that
neither the ALU nor the dispatch table holds. -/
def fetchCauses (s : State) : List Cause :=
  let pc := s.pc.toNat
  let op := s.mem.read pc
  causeIf (pc > 255) (.outOfRangeAccess .fetch s.pc)
  ++ causeIf (fieldN op ≥ 1 ∧ pc + 1 > 255) (.outOfRangeAccess .operand (BitVec.ofNat 9 (pc + 1)))
  ++ causeIf (fieldN op ≥ 2 ∧ pc + 2 > 255) (.outOfRangeAccess .operand (BitVec.ofNat 9 (pc + 2)))
  ++ causeIf (fieldA op = 1 ∧ op ∉ aluOpcodes) (.unsupportedAluOperation op)
  ++ causeIf (fieldA op = 0 ∧ op ∉ tableOpcodes) (.unknownInstruction op)

/-- Item 4 of R228: the register operands above 7, ra then rb. -/
def registerCauses (i : Instr) : List Cause :=
  (i.regOperands.filter fun ra => decide (ra.toNat > 7)).map fun ra =>
    .outOfRangeAccess .registerIndex (ra.setWidth 9)

/-- Item 5 of R228: a CALL whose return address is above 255, a DIV by a register that holds 0. -/
def instrCauses (s : State) : Instr → List Cause
  | .call _ => causeIf (s.pc.toNat + 2 > 255) (.outOfRangeAccess .returnAddress (s.pc + 2#9))
  | .div _ rb =>
    causeIf (∃ b : RegIndex, b.val = rb.toNat ∧ s.readReg b = 0#8) (.divideByZero 0xA3#8)
  | .hlt | .ldi _ _ | .prn _ | .push _ | .pop _ | .ret | .jmp _ | .jeq _ | .jne _
  | .add _ _ | .sub _ _ | .mul _ _ | .cmp _ _ => []

/-- Every cause whose condition holds in a state, each condition taken by itself, in the order of R228. -/
def applicableCauses (s : State) : List Cause :=
  let pc := s.pc.toNat
  fetchCauses s ++
    match opcodeInstr (s.mem.read pc) (s.mem.read (pc + 1)) (s.mem.read (pc + 2)) with
    | none => []
    | some i => registerCauses i ++ instrCauses s i

/-- A conditional jump that is not taken: JEQ with E clear, JNE with E set (R193, R194). -/
def JumpNotTaken (s : State) (i : Instr) : Prop :=
  (∃ ra, i = .jeq ra ∧ s.fl.toNat % 2 = 0) ∨ (∃ ra, i = .jne ra ∧ s.fl.toNat % 2 = 1)

/-! ## Raising, as the statements say it -/

/-- Executing `i` raises OutOfRangeAccess(REGISTER_INDEX, x): the state of the step's start with
Running, STOPCAUSE and STOPINFO written (R107, R226). -/
def RaisesRegisterIndex (i : Instr) (s : State) (x : Byte) : Prop :=
  exec i s = .next { s with running := false, stopCause := 4#3, stopInfo := 3#3 ++ x.setWidth 9 }

/-- The register check of an instruction with one register operand (R107). -/
def ChecksOneRegister (mk : Byte → Instr) : Prop :=
  ∀ (s : State) (ra : Byte), 7 < ra.toNat → RaisesRegisterIndex (mk ra) s ra

/-- The register checks of an instruction with two register operands: ra, then rb (R107, R137). -/
def ChecksTwoRegisters (mk : Byte → Byte → Instr) : Prop :=
  ∀ (s : State) (ra rb : Byte),
    (7 < ra.toNat → RaisesRegisterIndex (mk ra rb) s ra) ∧
    (ra.toNat ≤ 7 → 7 < rb.toNat → RaisesRegisterIndex (mk ra rb) s rb)

/-! ## The invariant -/

/-- What STOPCAUSE and STOPINFO may hold, and what they say of the instruction at PC (R220, R221,
R226): the row of R221 for each cause, with 256 as the only address of an operand fetch (DEDUCED from
R105, log entry 5). -/
def StopRecord (s : State) : Prop :=
  let pc := s.pc.toNat
  let op := s.mem.read pc
  let kind := s.stopKind.toNat
  let value := s.stopValue.toNat
  let instr := opcodeInstr op (s.mem.read (pc + 1)) (s.mem.read (pc + 2))
  match s.stopCause.toNat with
  | 0 => s.running = true ∧ s.stopInfo = 0#12
  | 1 => s.running = false ∧ s.stopInfo = 0#12 ∧ 1 ≤ pc ∧ s.mem.read (pc - 1) = 0x01#8
  | 2 => s.running = false ∧ pc ≤ 255 ∧ kind = 0 ∧ value = op.toNat ∧ fieldA op = 0 ∧ op ∉ tableOpcodes
  | 3 => s.running = false ∧ pc ≤ 255 ∧ kind = 0 ∧ value = op.toNat ∧ fieldA op = 1 ∧ op ∉ aluOpcodes
  | 4 => s.running = false ∧
      ((kind = 1 ∧ value = 256 ∧ pc = 256) ∨
       (kind = 2 ∧ value = 256 ∧ (fieldN op ≥ 1 ∧ pc = 255 ∨ fieldN op ≥ 2 ∧ pc = 254)) ∨
       (kind = 3 ∧ 8 ≤ value ∧ value ≤ 255 ∧
         ∃ i, instr = some i ∧ (i.badRegister.map BitVec.toNat) = some value) ∨
       (kind = 4 ∧ value = 256 ∧ pc = 254 ∧ op = 0x50#8))
  | 5 => s.running = false ∧ pc ≤ 253 ∧ kind = 0 ∧ value = 0xA3 ∧ op = 0xA3#8 ∧
      ∃ b : RegIndex, b.val = (s.mem.read (pc + 2)).toNat ∧ s.readReg b = 0#8
  | _ => False

/-- The invariant every step keeps: memory in canonical form (and so within 0 to 255), PC at most 256
(R11, R26), FL one of 0, 1, 2 and 4 (R30), and a legal stop record. -/
structure State.Inv (s : State) : Prop where
  memory : s.mem.wf
  pc : s.pc.toNat ≤ 256
  flags : s.fl = 0#8 ∨ s.fl = 1#8 ∨ s.fl = 2#8 ∨ s.fl = 4#8
  stop : StopRecord s

end Sys2Proof.Machine
end

