-- ==== Sys2Proof/Certificates/Slice0/Obligations.lean ====
section
/-!
DEFINITION. The statements for the provers, in the order of OBLIGATIONS.json.
Operand bytes stand as bytes: "`ra.toNat = a.val`" says that the byte `ra` names the register `a`.
-/

open Sys2Proof Sys2Proof.Machine

/-! ## Reset and start -/

/-- R25 and the reset values of 10_state.md section 1: the machine right after reset. -/
def Obligations.ResetStateValues : Prop :=
  (∀ r : RegIndex, r ≠ 7 → State.reset.readReg r = 0#8) ∧ State.reset.readReg 7 = 244#8 ∧
  State.reset.pc = 0#9 ∧ State.reset.fl = 0#8 ∧ State.reset.running = true ∧
  State.reset.stopCause = 0#3 ∧ State.reset.stopInfo = 0#12 ∧ State.reset.out = [] ∧
  ∀ addr : Nat, State.reset.mem.read addr = 0#8

/-- R261: the state the first step begins from, for every image of at most 256 bytes; a longer image
gives no machine (R260). -/
def Obligations.CreatePlacesImageInStartState : Prop :=
  ∀ img : List Byte,
    (img.length ≤ 256 → ∃ s, State.create img = some s ∧
      (∀ r : RegIndex, r ≠ 7 → s.readReg r = 0#8) ∧ s.readReg 7 = 244#8 ∧
      s.pc = 0#9 ∧ s.fl = 0#8 ∧ s.running = true ∧ s.stopCause = 0#3 ∧ s.stopInfo = 0#12 ∧
      s.out = [] ∧
      (∀ (k : Nat) (h : k < img.length), s.mem.read k = img[k]) ∧
      ∀ k : Nat, img.length ≤ k → s.mem.read k = 0#8) ∧
    (256 < img.length → State.create img = none)

/-- D25: the empty image's first fetch reads 0x00, which stops with UNKNOWN_INSTRUCTION at PC 0. -/
def Obligations.EmptyImageStopsOnOpcodeZero : Prop :=
  State.create [] = some State.reset ∧
  step State.reset = .next { State.reset with running := false, stopCause := 2#3, stopInfo := 0#12 }

/-! ## Decode and encode -/

/-- Words written out bit by bit from the encodings of R130 to R134, R160 to R165 and R190 to R194. -/
def Obligations.DecodeReadsSpecWords : Prop :=
  decode [0b00000001#8] = .ok (.hlt, []) ∧
  decode [0b10000010#8, 0b00000011#8, 0b10101011#8] = .ok (.ldi 3#8 171#8, []) ∧
  decode [0b01000111#8, 0b00000101#8] = .ok (.prn 5#8, []) ∧
  decode [0b01000101#8, 0b00000010#8] = .ok (.push 2#8, []) ∧
  decode [0b01010000#8, 0b00000001#8] = .ok (.call 1#8, []) ∧
  decode [0b00010001#8] = .ok (.ret, []) ∧
  decode [0b01010101#8, 0b11001000#8] = .ok (.jeq 200#8, []) ∧
  decode [0b10100000#8, 0b00000010#8, 0b00000111#8] = .ok (.add 2#8 7#8, []) ∧
  decode [0b10100111#8, 0b00000110#8, 0b00000001#8] = .ok (.cmp 6#8 1#8, [])

/-- R73: the four values of `decode(op)`, for every opcode byte. -/
def Obligations.OpcodeFieldsAreTheSpecsBits : Prop :=
  ∀ op : Byte,
    operandCount op = op.toNat / 64 ∧ instrLength op = op.toNat / 64 + 1 ∧
    (aluFlag op = true ↔ op.toNat / 32 % 2 = 1) ∧ (pcSetterFlag op = true ↔ op.toNat / 16 % 2 = 1)

/-- The opcode map of 30_encoding.md section 3: every opcode byte with its operand bytes is the
instruction of its row, or is rejected by its ALU flag; 15 are defined, 123 and 118 are not. -/
def Obligations.DecodeFollowsOpcodeMap : Prop :=
  (∀ (op : Byte) (rest : List Byte), min (fieldN op) 2 ≤ rest.length →
    decode (op :: rest) =
      match opcodeInstr op (rest[0]?.getD 0#8) (rest[1]?.getD 0#8) with
      | some i => .ok (i, rest.drop (min (fieldN op) 2))
      | none => if fieldA op = 1 then .error (.unsupportedAluOperation op)
                else .error (.unknownInstruction op)) ∧
  (∀ op a b : Byte, opcodeInstr op a b = none ↔ op ∉ aluOpcodes ∧ op ∉ tableOpcodes) ∧
  ((List.range 256).countP fun k =>
    fieldA (BitVec.ofNat 8 k) = 1 ∧ BitVec.ofNat 8 k ∉ aluOpcodes) = 123 ∧
  ((List.range 256).countP fun k =>
    fieldA (BitVec.ofNat 8 k) = 0 ∧ BitVec.ofNat 8 k ∉ tableOpcodes) = 118

/-- Decoding the bytes of any instruction, every operand byte at every value, gives it back and leaves
the bytes after it. -/
def Obligations.DecodeEncodeRoundTrip : Prop :=
  ∀ (i : Instr) (rest : List Byte), decode (encode i ++ rest) = .ok (i, rest)

/-- The other direction: bytes that decode are the encoding of what they decode to. -/
def Obligations.EncodeDecodeRoundTrip : Prop :=
  ∀ (bytes rest : List Byte) (i : Instr), decode bytes = .ok (i, rest) → bytes = encode i ++ rest

/-! ## The step -/

/-- A step of a running state whose fetched bytes decode to `i` is `exec i`; the step adds nothing. -/
def Obligations.StepRunsDecodedInstruction : Prop :=
  ∀ (s : State) (i : Instr) (rest : List Byte),
    s.running = true → decode s.fetch = .ok (i, rest) → step s = exec i s

/-- With the bytes of `i` in memory from PC upward (R102, R105), a running state's step is `exec i`. -/
def Obligations.StepRunsBytesInMemory : Prop :=
  ∀ (s : State) (i : Instr),
    s.running = true → s.pc.toNat + (encode i).length ≤ 256 →
    (∀ (k : Nat) (h : k < (encode i).length), s.mem.read (s.pc.toNat + k) = (encode i)[k]) →
    step s = exec i s

/-- With Running = 1 the step is the execution cycle of R100, phase by phase. R100 is defined only there:
that the cycle answers `.fault .stopped` when Running = 0 is the model's choice (log entry 1). -/
def Obligations.StepIsTheExecutionCycle : Prop := ∀ s : State, step s = cycleStep s

/-- R103: a state has a next state exactly when Running = 1, and no step ends in a refusal.
That a stopped state's step answers `.fault .stopped` is the model's choice (log entry 1). -/
def Obligations.StepExistsExactlyWhileRunning : Prop :=
  ∀ s : State,
    ((∃ t, step s = .next t) ↔ s.running = true) ∧
    (s.running = false → step s = .fault .stopped) ∧
    ∀ m : String, step s ≠ .refused (.notModelled m)

/-- R104. -/
def Obligations.FetchAboveMemoryRaises : Prop :=
  ∀ s : State, s.running = true → s.pc.toNat > 255 →
    step s = .next { s with running := false, stopCause := 4#3, stopInfo := 1#3 ++ s.pc }

/-- R105: an operand byte at address 256 is not fetched; the step raises OutOfRangeAccess(OPERAND). That
the recorded address is 256 in every case is deduced (log entry 5). -/
def Obligations.OperandFetchAboveMemoryRaises : Prop :=
  ∀ (s : State) (op : Byte), s.running = true → s.mem.read s.pc.toNat = op →
    (s.pc.toNat = 255 ∧ op.toNat / 64 ≥ 1 ∨ s.pc.toNat = 254 ∧ op.toNat / 64 ≥ 2) →
    step s = .next { s with running := false, stopCause := 4#3, stopInfo := 2#3 ++ 256#9 }

/-- R112 and R114: every opcode that is not one of the fifteen, once its operand bytes are fetched. -/
def Obligations.IllegalOpcodeRaises : Prop :=
  ∀ (s : State) (op : Byte), s.running = true → s.mem.read s.pc.toNat = op →
    s.pc.toNat + min (op.toNat / 64) 2 ≤ 255 →
    (op.toNat / 32 % 2 = 1 → op ∉ [0xA0#8, 0xA1#8, 0xA2#8, 0xA3#8, 0xA7#8] →
      step s = .next { s with running := false, stopCause := 3#3, stopInfo := 0#3 ++ op.setWidth 9 }) ∧
    (op.toNat / 32 % 2 = 0 →
      op ∉ [0x01#8, 0x82#8, 0x47#8, 0x45#8, 0x46#8, 0x50#8, 0x11#8, 0x54#8, 0x55#8, 0x56#8] →
      step s = .next { s with running := false, stopCause := 2#3, stopInfo := 0#3 ++ op.setWidth 9 })

/-- R226, with the codes of R220 and the records of R221: raising writes the stop status and no other
state. -/
def Obligations.RaiseWritesOnlyStopStatus : Prop :=
  ∀ s : State,
    (∀ c : Cause, SameButStatus s (s.raise c) ∧ (s.raise c).running = false) ∧
    (∀ op : Byte,
      (s.raise (.unknownInstruction op)).stopCause = 2#3 ∧
      (s.raise (.unknownInstruction op)).stopKind = 0#3 ∧
      (s.raise (.unknownInstruction op)).stopValue.toNat = op.toNat ∧
      (s.raise (.unsupportedAluOperation op)).stopCause = 3#3 ∧
      (s.raise (.unsupportedAluOperation op)).stopKind = 0#3 ∧
      (s.raise (.unsupportedAluOperation op)).stopValue.toNat = op.toNat ∧
      (s.raise (.divideByZero op)).stopCause = 5#3 ∧
      (s.raise (.divideByZero op)).stopKind = 0#3 ∧
      (s.raise (.divideByZero op)).stopValue.toNat = op.toNat) ∧
    (∀ (k : AccessKind) (v : PcWord),
      (s.raise (.outOfRangeAccess k v)).stopCause = 4#3 ∧
      (s.raise (.outOfRangeAccess k v)).stopValue = v ∧
      (s.raise (.outOfRangeAccess k v)).stopKind =
        match k with
        | .fetch => 1#3
        | .operand => 2#3
        | .registerIndex => 3#3
        | .returnAddress => 4#3)

/-- R228: a running state's step raises the first cause that applies, and completes its instruction
when none does. -/
def Obligations.StepRaisesFirstApplicableCause : Prop :=
  ∀ s : State, s.running = true →
    (∀ (c : Cause) (later : List Cause), applicableCauses s = c :: later →
      step s = .next (s.raise c)) ∧
    (applicableCauses s = [] → ∃ (i : Instr) (rest : List Byte) (t : State),
      decode s.fetch = .ok (i, rest) ∧ step s = .next t ∧ t.stopInfo = s.stopInfo ∧
      (i ≠ .hlt → t.running = true ∧ t.stopCause = s.stopCause))

/-- R107: the first register operand above 7, ra before rb, raises OutOfRangeAccess(REGISTER_INDEX)
before any write, in every instruction that names a register and whatever the flags; where no register
operand is above 7 the check does nothing. -/
def Obligations.RegisterAboveSevenRaises : Prop :=
  ∀ (i : Instr) (s : State),
    (∀ x : Byte, i.regOperands.find? (fun ra => decide (7 < ra.toNat)) = some x →
      exec i s = .next { s with running := false, stopCause := 4#3, stopInfo := 3#3 ++ x.setWidth 9 }) ∧
    (s.running = true → i.regOperands.find? (fun ra => decide (7 < ra.toNat)) = none →
      ∀ t, exec i s = .next t → t.running = true ∨ t.stopCause ≠ 4#3 ∨ t.stopKind ≠ 3#3)

/-- R232, with the exceptions of R190 and R133: every instruction with legal operands completes, whatever
the state holds, but for a CALL above address 253 and a DIV by a register that holds 0. R232 speaks of
states with Running = 1; that `exec` does not look at Running is the model's choice (log entry 8). -/
def Obligations.LegalInstructionCompletes : Prop :=
  ∀ (i : Instr) (s : State), i.wellFormed = true →
    (∀ ra, i = .call ra → s.pc.toNat ≤ 253) →
    (∀ ra rb (b : RegIndex), i = .div ra rb → rb.toNat = b.val → s.readReg b ≠ 0#8) →
    ∃ t, exec i s = .next t ∧ t.stopInfo = s.stopInfo ∧
      (i = .hlt → t.running = false ∧ t.stopCause = 1#3) ∧
      (i ≠ .hlt → t.running = s.running ∧ t.stopCause = s.stopCause)

/-! ## The ALU -/

/-- R130. -/
def Obligations.AddResult : Prop :=
  (∀ (ra rb : Byte) (rest : List Byte),
    decode (0b10100000#8 :: ra :: rb :: rest) = .ok (.add ra rb, rest)) ∧
  (∀ (s : State) (ra rb : Byte) (a b : RegIndex), ra.toNat = a.val → rb.toNat = b.val →
    exec (.add ra rb) s = .next { s with
      regs := s.regs.set a (BitVec.ofNat 8 (((s.readReg a).toNat + (s.readReg b).toNat) % 256)),
      pc := s.pc + 3#9 }) ∧
  ChecksTwoRegisters .add

/-- R131: a negative difference is reduced modulo 256. -/
def Obligations.SubResult : Prop :=
  (∀ (ra rb : Byte) (rest : List Byte),
    decode (0b10100001#8 :: ra :: rb :: rest) = .ok (.sub ra rb, rest)) ∧
  (∀ (s : State) (ra rb : Byte) (a b : RegIndex), ra.toNat = a.val → rb.toNat = b.val →
    exec (.sub ra rb) s = .next { s with
      regs := s.regs.set a (BitVec.ofNat 8 ((256 + (s.readReg a).toNat - (s.readReg b).toNat) % 256)),
      pc := s.pc + 3#9 }) ∧
  ChecksTwoRegisters .sub

/-- R132. -/
def Obligations.MulResult : Prop :=
  (∀ (ra rb : Byte) (rest : List Byte),
    decode (0b10100010#8 :: ra :: rb :: rest) = .ok (.mul ra rb, rest)) ∧
  (∀ (s : State) (ra rb : Byte) (a b : RegIndex), ra.toNat = a.val → rb.toNat = b.val →
    exec (.mul ra rb) s = .next { s with
      regs := s.regs.set a (BitVec.ofNat 8 (((s.readReg a).toNat * (s.readReg b).toNat) % 256)),
      pc := s.pc + 3#9 }) ∧
  ChecksTwoRegisters .mul

/-- R133: the truncated quotient, or DivideByZero with nothing else written. -/
def Obligations.DivResult : Prop :=
  (∀ (ra rb : Byte) (rest : List Byte),
    decode (0b10100011#8 :: ra :: rb :: rest) = .ok (.div ra rb, rest)) ∧
  (∀ (s : State) (ra rb : Byte) (a b : RegIndex), ra.toNat = a.val → rb.toNat = b.val →
    (s.readReg b ≠ 0#8 → exec (.div ra rb) s = .next { s with
      regs := s.regs.set a (BitVec.ofNat 8 ((s.readReg a).toNat / (s.readReg b).toNat)),
      pc := s.pc + 3#9 }) ∧
    (s.readReg b = 0#8 → exec (.div ra rb) s = .next { s with
      running := false, stopCause := 5#3, stopInfo := 0#3 ++ 0xA3#9 })) ∧
  ChecksTwoRegisters .div

/-- R134: exactly one of E, G and L, by an unsigned comparison. -/
def Obligations.CmpResult : Prop :=
  (∀ (ra rb : Byte) (rest : List Byte),
    decode (0b10100111#8 :: ra :: rb :: rest) = .ok (.cmp ra rb, rest)) ∧
  (∀ (s : State) (ra rb : Byte) (a b : RegIndex), ra.toNat = a.val → rb.toNat = b.val →
    exec (.cmp ra rb) s = .next { s with
      fl := if (s.readReg a).toNat = (s.readReg b).toNat then 0b00000001#8
            else if (s.readReg a).toNat > (s.readReg b).toNat then 0b00000010#8
            else 0b00000100#8,
      pc := s.pc + 3#9 }) ∧
  ChecksTwoRegisters .cmp

/-! ## Dispatch instructions without control transfer -/

/-- R160: STOPINFO is not written, and PC advances past the opcode. -/
def Obligations.HltResult : Prop :=
  (∀ rest : List Byte, decode (0b00000001#8 :: rest) = .ok (.hlt, rest)) ∧
  ∀ s : State, exec .hlt s = .next { s with running := false, stopCause := 1#3, pc := s.pc + 1#9 }

/-- R161. -/
def Obligations.LdiResult : Prop :=
  (∀ (ra imm : Byte) (rest : List Byte),
    decode (0b10000010#8 :: ra :: imm :: rest) = .ok (.ldi ra imm, rest)) ∧
  (∀ (s : State) (ra imm : Byte) (a : RegIndex), ra.toNat = a.val →
    exec (.ldi ra imm) s = .next { s with regs := s.regs.set a imm, pc := s.pc + 3#9 }) ∧
  ∀ imm : Byte, ChecksOneRegister fun ra => .ldi ra imm

/-- R162: one event carrying R[a], after the earlier ones (R163). -/
def Obligations.PrnResult : Prop :=
  (∀ (ra : Byte) (rest : List Byte), decode (0b01000111#8 :: ra :: rest) = .ok (.prn ra, rest)) ∧
  (∀ (s : State) (ra : Byte) (a : RegIndex), ra.toNat = a.val →
    exec (.prn ra) s = .next { s with out := s.out ++ [s.readReg a], pc := s.pc + 2#9 }) ∧
  ChecksOneRegister .prn

/-- R164: SP is decremented modulo 256, then R[a] is stored there; PUSH R7 stores the decremented SP. -/
def Obligations.PushResult : Prop :=
  (∀ (ra : Byte) (rest : List Byte), decode (0b01000101#8 :: ra :: rest) = .ok (.push ra, rest)) ∧
  (∀ (s : State) (ra : Byte) (a : RegIndex), ra.toNat = a.val → s.mem.wf →
    ∃ t, exec (.push ra) s = .next t ∧
      t.readReg 7 = s.readReg 7 - 1#8 ∧ SameRegsExcept s t [7] ∧
      t.load (s.readReg 7 - 1#8) = (if a = 7 then s.readReg 7 - 1#8 else s.readReg a) ∧
      SameMemoryExcept s t (s.readReg 7 - 1#8) ∧
      t.pc = s.pc + 2#9 ∧ t.fl = s.fl ∧ t.out = s.out ∧ SameStatus s t) ∧
  ChecksOneRegister .push

/-- R165: R[a] takes the byte at SP, then SP is incremented modulo 256; POP R7 increments the byte it
took. -/
def Obligations.PopResult : Prop :=
  (∀ (ra : Byte) (rest : List Byte), decode (0b01000110#8 :: ra :: rest) = .ok (.pop ra, rest)) ∧
  (∀ (s : State) (ra : Byte) (a : RegIndex), ra.toNat = a.val →
    ∃ t, exec (.pop ra) s = .next t ∧
      (a ≠ 7 → t.readReg a = s.load (s.readReg 7) ∧ t.readReg 7 = s.readReg 7 + 1#8) ∧
      (a = 7 → t.readReg 7 = s.load (s.readReg 7) + 1#8) ∧
      SameRegsExcept s t [a, 7] ∧ t.mem = s.mem ∧
      t.pc = s.pc + 2#9 ∧ t.fl = s.fl ∧ t.out = s.out ∧ SameStatus s t) ∧
  ChecksOneRegister .pop

/-- R166: PUSH Ra and then POP Ra leave Ra and SP as they were; the one byte that may change is
MEM[SP - 1], which holds Ra, or SP - 1 for R7. -/
def Obligations.PushPopRoundTrip : Prop :=
  ∀ (s : State) (ra : Byte) (a : RegIndex), ra.toNat = a.val → s.mem.wf →
    ∃ t u, exec (.push ra) s = .next t ∧ exec (.pop ra) t = .next u ∧
      u.regs = s.regs ∧
      u.load (s.readReg 7 - 1#8) = (if a = 7 then s.readReg 7 - 1#8 else s.readReg a) ∧
      SameMemoryExcept s u (s.readReg 7 - 1#8) ∧
      u.pc = s.pc + 4#9 ∧ u.fl = s.fl ∧ u.out = s.out ∧ SameStatus s u

/-- R167: LDI Ra, v and then PRN Ra emit exactly v. -/
def Obligations.LdiThenPrnEmitsImmediate : Prop :=
  ∀ (s : State) (ra v : Byte), ra.toNat ≤ 7 →
    ∃ t u, exec (.ldi ra v) s = .next t ∧ exec (.prn ra) t = .next u ∧ u.out = s.out ++ [v]

/-! ## Control transfer -/

/-- R190: the return address goes to the decremented SP; CALL R7 jumps to the decremented SP; CALL at
address 254 raises OutOfRangeAccess(RETURN_ADDRESS, 256). -/
def Obligations.CallResult : Prop :=
  (∀ (ra : Byte) (rest : List Byte), decode (0b01010000#8 :: ra :: rest) = .ok (.call ra, rest)) ∧
  (∀ (s : State) (ra : Byte) (a : RegIndex), ra.toNat = a.val →
    (s.pc.toNat ≤ 253 → s.mem.wf →
      ∃ t, exec (.call ra) s = .next t ∧
        t.readReg 7 = s.readReg 7 - 1#8 ∧ SameRegsExcept s t [7] ∧
        (t.load (s.readReg 7 - 1#8)).toNat = s.pc.toNat + 2 ∧
        SameMemoryExcept s t (s.readReg 7 - 1#8) ∧
        t.pc.toNat = (if a = 7 then s.readReg 7 - 1#8 else s.readReg a).toNat ∧
        t.fl = s.fl ∧ t.out = s.out ∧ SameStatus s t) ∧
    (s.pc.toNat = 254 → exec (.call ra) s = .next { s with
      running := false, stopCause := 4#3, stopInfo := 4#3 ++ 256#9 })) ∧
  ChecksOneRegister .call

/-- R191. -/
def Obligations.RetResult : Prop :=
  (∀ rest : List Byte, decode (0b00010001#8 :: rest) = .ok (.ret, rest)) ∧
  ∀ s : State, exec .ret s = .next { s with
    pc := (s.load (s.readReg 7)).setWidth 9, regs := s.regs.set 7 (s.readReg 7 + 1#8) }

/-- R192. -/
def Obligations.JmpResult : Prop :=
  (∀ (ra : Byte) (rest : List Byte), decode (0b01010100#8 :: ra :: rest) = .ok (.jmp ra, rest)) ∧
  (∀ (s : State) (ra : Byte) (a : RegIndex), ra.toNat = a.val →
    exec (.jmp ra) s = .next { s with pc := (s.readReg a).setWidth 9 }) ∧
  ChecksOneRegister .jmp

/-- R193: ra is checked though the jump is not taken. -/
def Obligations.JeqResult : Prop :=
  (∀ (ra : Byte) (rest : List Byte), decode (0b01010101#8 :: ra :: rest) = .ok (.jeq ra, rest)) ∧
  (∀ (s : State) (ra : Byte) (a : RegIndex), ra.toNat = a.val →
    (s.fl.toNat % 2 = 1 → exec (.jeq ra) s = .next { s with pc := (s.readReg a).setWidth 9 }) ∧
    (s.fl.toNat % 2 = 0 → exec (.jeq ra) s = .next { s with pc := s.pc + 2#9 })) ∧
  ChecksOneRegister .jeq

/-- R194: ra is checked though the jump is not taken. -/
def Obligations.JneResult : Prop :=
  (∀ (ra : Byte) (rest : List Byte), decode (0b01010110#8 :: ra :: rest) = .ok (.jne ra, rest)) ∧
  (∀ (s : State) (ra : Byte) (a : RegIndex), ra.toNat = a.val →
    (s.fl.toNat % 2 = 0 → exec (.jne ra) s = .next { s with pc := (s.readReg a).setWidth 9 }) ∧
    (s.fl.toNat % 2 = 1 → exec (.jne ra) s = .next { s with pc := s.pc + 2#9 })) ∧
  ChecksOneRegister .jne

/-- R197: a CALL, a subroutine that leaves SP and MEM[SP] as CALL left them, and RET return to the
address after the CALL with SP as before it. -/
def Obligations.CallThenReturnComesBack : Prop :=
  ∀ (s : State) (ra : Byte) (a : RegIndex), ra.toNat = a.val → s.mem.wf → s.pc.toNat ≤ 253 →
    ∃ t, exec (.call ra) s = .next t ∧
      ∀ u : State, u.readReg 7 = t.readReg 7 → u.load (u.readReg 7) = t.load (t.readReg 7) →
        ∃ v, exec .ret u = .next v ∧ v.pc.toNat = s.pc.toNat + 2 ∧ v.readReg 7 = s.readReg 7

/-- R198: after CMP Ra, Rb, with FL as CMP left it, JEQ jumps exactly when R[a] = R[b] and JNE exactly
when R[a] and R[b] differ. -/
def Obligations.CmpDecidesConditionalJumps : Prop :=
  ∀ (s : State) (ra rb rc : Byte) (a b c : RegIndex),
    ra.toNat = a.val → rb.toNat = b.val → rc.toNat = c.val →
    ∃ t, exec (.cmp ra rb) s = .next t ∧
      ∀ u : State, u.fl = t.fl →
        exec (.jeq rc) u = .next { u with
          pc := if s.readReg a = s.readReg b then (u.readReg c).setWidth 9 else u.pc + 2#9 } ∧
        exec (.jne rc) u = .next { u with
          pc := if s.readReg a = s.readReg b then u.pc + 2#9 else (u.readReg c).setWidth 9 }

/-- R110: an instruction without the PC-setter flag that completes advances PC by its length, without
a wrap. -/
def Obligations.CompletedInstructionAdvancesPc : Prop :=
  ∀ (s : State) (i : Instr) (rest : List Byte),
    s.running = true → decode s.fetch = .ok (i, rest) → fieldP i.opcode = 0 →
    i.wellFormed = true → instrCauses s i = [] →
    ∃ t, step s = .next t ∧ t.pc.toNat = s.pc.toNat + (fieldN i.opcode + 1) ∧ t.pc.toNat ≤ 256

/-- R195 and R111: after a step of a PC-setter instruction that transfers control, PC is a byte address;
after a JEQ with E clear or a JNE with E set, which do not, it is the address after the instruction. -/
def Obligations.PcSetterTargetsAreBytes : Prop :=
  ∀ (s t : State) (i : Instr) (rest : List Byte),
    s.running = true → decode s.fetch = .ok (i, rest) → fieldP i.opcode = 1 →
    step s = .next t → t.running = true →
    (JumpNotTaken s i → t.pc.toNat = s.pc.toNat + 2) ∧
    (¬ JumpNotTaken s i → t.pc.toNat ≤ 255)

/-! ## Frames -/

/-- ADD, SUB, MUL and DIV: no register but R[a] changes, and no flag, no byte of memory and no event;
the stop status changes only when the instruction raises. -/
def Obligations.ArithmeticFrame : Prop :=
  ∀ (s t : State) (ra rb : Byte) (i : Instr),
    i ∈ [Instr.add ra rb, .sub ra rb, .mul ra rb, .div ra rb] → exec i s = .next t →
    (∀ r : RegIndex, r.val ≠ ra.toNat → t.readReg r = s.readReg r) ∧
    t.fl = s.fl ∧ t.out = s.out ∧ SameMemory s t ∧
    (SameStatus s t ∨ ((t.stopCause = 4#3 ∨ t.stopCause = 5#3) ∧ SameButStatus s t))

/-- HLT, PRN, JMP, JEQ, JNE and CMP: no register and no byte of memory changes; FL only by CMP, the
event stream only by PRN, the stop status only by HLT or a raise. -/
def Obligations.NoRegisterWrittenFrame : Prop :=
  ∀ (s t : State) (ra rb : Byte) (i : Instr),
    i ∈ [Instr.hlt, .prn ra, .jmp ra, .jeq ra, .jne ra, .cmp ra rb] → exec i s = .next t →
    t.regs = s.regs ∧ SameMemory s t ∧
    (i ≠ .cmp ra rb → t.fl = s.fl) ∧ (i ≠ .prn ra → t.out = s.out) ∧
    (i ≠ .hlt → SameStatus s t ∨ (t.stopCause = 4#3 ∧ SameButStatus s t)) ∧
    (i = .hlt → t.stopInfo = s.stopInfo)

/-- LDI writes R[a]; POP writes R[a] and SP; RET writes SP: no other register changes, and no flag, no
byte of memory and no event. -/
def Obligations.LoadingFrame : Prop :=
  ∀ (s t : State) (ra imm : Byte) (i : Instr),
    i ∈ [Instr.ldi ra imm, .pop ra, .ret] → exec i s = .next t →
    (∀ r : RegIndex, (i ≠ .ret → r.val ≠ ra.toNat) → (i ≠ .ldi ra imm → r ≠ 7) →
      t.readReg r = s.readReg r) ∧
    t.fl = s.fl ∧ t.out = s.out ∧ SameMemory s t ∧
    (SameStatus s t ∨ (t.stopCause = 4#3 ∧ SameButStatus s t))

/-- PUSH and CALL store one byte, at the decremented SP: every other byte reads as before; no register
but SP changes, and no flag and no event. -/
def Obligations.StackStoreFrame : Prop :=
  ∀ (s t : State) (ra : Byte) (i : Instr),
    i ∈ [Instr.push ra, .call ra] → s.mem.wf → exec i s = .next t →
    SameRegsExcept s t [7] ∧ SameMemoryExcept s t s.decSp.sp ∧
    t.fl = s.fl ∧ t.out = s.out ∧
    (SameStatus s t ∨ (t.stopCause = 4#3 ∧ SameButStatus s t))

/-! ## Whole-machine rules -/

/-- R31: a step that changes FL executes CMP. -/
def Obligations.OnlyCmpWritesFlags : Prop :=
  ∀ s t : State, step s = .next t → t.fl ≠ s.fl →
    ∃ (ra rb : Byte) (rest : List Byte), decode s.fetch = .ok (.cmp ra rb, rest)

/-- R54: a step that changes a byte of memory executes PUSH or CALL, and that byte is the one at the
decremented SP. -/
def Obligations.OnlyPushAndCallStore : Prop :=
  ∀ (s t : State) (addr : Nat), s.mem.wf → step s = .next t → t.mem.read addr ≠ s.mem.read addr →
    addr = (s.readReg 7 - 1#8).toNat ∧
    ∃ (ra : Byte) (rest : List Byte),
      decode s.fetch = .ok (.push ra, rest) ∨ decode s.fetch = .ok (.call ra, rest)

/-- R163: a step emits nothing, or it executes PRN Ra and emits R[a] after the earlier events. -/
def Obligations.OnlyPrnEmits : Prop :=
  ∀ s t : State, step s = .next t →
    t.out = s.out ∨
    ∃ (ra : Byte) (a : RegIndex) (rest : List Byte),
      decode s.fetch = .ok (.prn ra, rest) ∧ ra.toNat = a.val ∧ t.out = s.out ++ [s.readReg a]

/-- R163: what has been emitted has no effect on the step: with another event stream before it, the
step is the same and emits the same. -/
def Obligations.EmittedEventsDoNotAffectStep : Prop :=
  ∀ (s t : State) (before : List Byte), step s = .next t →
    step { s with out := before } = .next { t with out := before ++ t.out.drop s.out.length }

/-- R18: the three outcomes of a step from a running state of the invariant, and none from a stopped
one. -/
def Obligations.StepHasThreeOutcomes : Prop :=
  ∀ s : State,
    (s.running = true → s.Inv → ∃ t, step s = .next t ∧
      ((t.running = true ∧ t.stopCause = 0#3) ∨
       (t.running = false ∧ t.stopCause = 1#3 ∧ ∃ rest, decode s.fetch = .ok (.hlt, rest)) ∨
       (t.running = false ∧ t.stopCause ∈ [2#3, 3#3, 4#3, 5#3] ∧ SameButStatus s t))) ∧
    (s.running = false → ∀ t, step s ≠ .next t)

/-- R64: a byte that PUSH stores at the address of the next instruction is the opcode the next step
fetches; for PUSH R7 that byte is the decremented SP (R164). -/
def Obligations.NextFetchSeesPushedByte : Prop :=
  ∀ (s : State) (ra : Byte) (a : RegIndex) (rest : List Byte),
    s.running = true → s.mem.wf → decode s.fetch = .ok (.push ra, rest) →
    ra.toNat = a.val → (s.readReg 7 - 1#8).toNat = s.pc.toNat + 2 →
    ∃ t, step s = .next t ∧
      t.fetch.head? = some (if a = 7 then s.readReg 7 - 1#8 else s.readReg a)

/-- R115: a JMP to its own address runs forever; no number of steps ends the run. -/
def Obligations.SelfJumpRunsForever : Prop :=
  ∀ (s : State) (ra : Byte) (a : RegIndex) (rest : List Byte),
    s.running = true → decode s.fetch = .ok (.jmp ra, rest) → ra.toNat = a.val →
    (s.readReg a).toNat = s.pc.toNat → ∀ k : Nat, Sys2Proof.core.run k s = .next s

/-! ## The invariant -/

/-- The invariant holds at reset. -/
def Obligations.ResetMeetsInvariant : Prop := State.reset.Inv

/-- The invariant holds in the start state of every image. -/
def Obligations.StartStatesMeetInvariant : Prop :=
  ∀ (img : List Byte) (s : State), State.create img = some s → s.Inv

/-- Every step keeps the invariant: memory canonical and within 0 to 255, PC at most 256, FL one of 0,
1, 2 and 4, and STOPCAUSE and STOPINFO a row of R221 that names the instruction at PC. Where R221 lists
256 or 257 for an operand fetch, the record holds 256 alone: deduced from R105 (log entry 5). -/
def Obligations.StepKeepsInvariant : Prop :=
  ∀ s t : State, s.Inv → step s = .next t → t.Inv

/-- The invariant holds in every state that a run of any image reaches, and such a run stops only by
HLT or a recorded fault. The record's operand address is 256 alone: deduced from R105 (log entry 5). -/
def Obligations.ReachableStatesMeetInvariant : Prop :=
  ∀ s : State, Reachable s →
    s.Inv ∧ (s.running = true ↔ s.stopCause = 0#3) ∧ (s.stopCause.toNat ≤ 5)

/-! ## The host side -/

/-- R266: the views show the whole of MEM, and the trace's stack window shows addresses 236 to 243. -/
def Obligations.ViewsShowMemory : Prop :=
  ∀ s : State,
    s.view.mem.length = 256 ∧ s.stackWindow.length = 8 ∧
    (∀ k, k < 256 → s.view.mem[k]? = some (s.mem.read k)) ∧
    ∀ k, k < 8 → s.stackWindow[k]? = some (s.mem.read (236 + k))

/-- R91 and R92: the text of an image, one line of 8 binary digits a byte, loads as that image. The
newline that ends a line is the model's choice (log entry 4). -/
def Obligations.LoadedTextGivesImage : Prop :=
  ∀ (img : List Byte) (arg : List Char), img.length ≤ 256 →
    parseProgram (imageText img) = .ok img ∧
    ∃ s, State.create img = some s ∧ boot [arg] (imageText img) = .ok s

/-- R93 and R94: a line that is not 8 binary digits, or an image of more than 256 bytes, fails the
load; and a command line without exactly one argument starts nothing. Which
characters end a line and are white space is the model's choice (log entry 4). -/
def Obligations.BadLoadStartsNothing : Prop :=
  (∀ (text line : List Char) (arg : List Char), line ∈ contentLines text →
    (line.length ≠ 8 ∨ ∃ c ∈ line, c ≠ '0' ∧ c ≠ '1') →
    boot [arg] text = .error .programLoadParseError) ∧
  (∀ (text : List Char) (arg : List Char), 256 < (contentLines text).length →
    boot [arg] text = .error .programLoadParseError) ∧
  (∀ (args : List (List Char)) (text : List Char), args.length ≠ 1 →
    boot args text = .error .invalidProgramArgument)
end

