-- ==== Sys2Proof/Laws/Decode.lean ====
section
/-! SUPPORT. What the decoder does with an opcode and its operand bytes. -/

namespace Sys2Proof

/-! The opcode and operand bytes of each instruction (R74, R76). -/

@[simp] theorem opcode_hlt : Instr.hlt.opcode = Opcode.hlt := rfl
@[simp] theorem operands_hlt : Instr.hlt.operands = [] := rfl
@[simp] theorem opcode_ldi (x y : Byte) : (Instr.ldi x y).opcode = Opcode.ldi := rfl
@[simp] theorem operands_ldi (x y : Byte) : (Instr.ldi x y).operands = [x, y] := rfl
@[simp] theorem opcode_prn (x : Byte) : (Instr.prn x).opcode = Opcode.prn := rfl
@[simp] theorem operands_prn (x : Byte) : (Instr.prn x).operands = [x] := rfl
@[simp] theorem opcode_push (x : Byte) : (Instr.push x).opcode = Opcode.push := rfl
@[simp] theorem operands_push (x : Byte) : (Instr.push x).operands = [x] := rfl
@[simp] theorem opcode_pop (x : Byte) : (Instr.pop x).opcode = Opcode.pop := rfl
@[simp] theorem operands_pop (x : Byte) : (Instr.pop x).operands = [x] := rfl
@[simp] theorem opcode_call (x : Byte) : (Instr.call x).opcode = Opcode.call := rfl
@[simp] theorem operands_call (x : Byte) : (Instr.call x).operands = [x] := rfl
@[simp] theorem opcode_ret : Instr.ret.opcode = Opcode.ret := rfl
@[simp] theorem operands_ret : Instr.ret.operands = [] := rfl
@[simp] theorem opcode_jmp (x : Byte) : (Instr.jmp x).opcode = Opcode.jmp := rfl
@[simp] theorem operands_jmp (x : Byte) : (Instr.jmp x).operands = [x] := rfl
@[simp] theorem opcode_jeq (x : Byte) : (Instr.jeq x).opcode = Opcode.jeq := rfl
@[simp] theorem operands_jeq (x : Byte) : (Instr.jeq x).operands = [x] := rfl
@[simp] theorem opcode_jne (x : Byte) : (Instr.jne x).opcode = Opcode.jne := rfl
@[simp] theorem operands_jne (x : Byte) : (Instr.jne x).operands = [x] := rfl
@[simp] theorem opcode_add (x y : Byte) : (Instr.add x y).opcode = Opcode.add := rfl
@[simp] theorem operands_add (x y : Byte) : (Instr.add x y).operands = [x, y] := rfl
@[simp] theorem opcode_sub (x y : Byte) : (Instr.sub x y).opcode = Opcode.sub := rfl
@[simp] theorem operands_sub (x y : Byte) : (Instr.sub x y).operands = [x, y] := rfl
@[simp] theorem opcode_mul (x y : Byte) : (Instr.mul x y).opcode = Opcode.mul := rfl
@[simp] theorem operands_mul (x y : Byte) : (Instr.mul x y).operands = [x, y] := rfl
@[simp] theorem opcode_div (x y : Byte) : (Instr.div x y).opcode = Opcode.div := rfl
@[simp] theorem operands_div (x y : Byte) : (Instr.div x y).operands = [x, y] := rfl
@[simp] theorem opcode_cmp (x y : Byte) : (Instr.cmp x y).opcode = Opcode.cmp := rfl
@[simp] theorem operands_cmp (x y : Byte) : (Instr.cmp x y).operands = [x, y] := rfl

/-- The opcode's operand count is the number of operand bytes of the instruction's format (R74). -/
theorem operandCount_opcode (i : Instr) : operandCount i.opcode = i.operands.length := by
  cases i <;> (simp only [Instr.opcode, Instr.operands]; rfl)

/-- The opcode byte asks for as many operand bytes as the instruction has (R74). -/
theorem operandsFetched_opcode (i : Instr) : operandsFetched i.opcode = i.operands.length := by
  cases i <;> (simp only [Instr.opcode, Instr.operands]; rfl)

/-- An instruction's opcode and operand bytes decode to it. -/
theorem decodeOpcode_operands (i : Instr) : decodeOpcode i.opcode i.operands = .ok i := by
  cases i <;> (simp only [Instr.opcode, Instr.operands]; rfl)

/-- An ALU opcode that is accepted is that instruction's opcode, with its operand bytes. -/
theorem aluInstr_some {op : Byte} {operands : List Byte} {i : Instr}
    (h : aluInstr op operands = some i) : op = i.opcode ∧ operands = i.operands := by
  unfold aluInstr at h
  split at h
  · repeat' split at h
    all_goals first
      | (obtain rfl := Option.some.inj h; exact ⟨‹_›, rfl⟩)
      | cases h
  · cases h

/-- A dispatch opcode that is found is that instruction's opcode, with its operand bytes. -/
theorem dispatchInstr_some {op : Byte} {operands : List Byte} {i : Instr}
    (h : dispatchInstr op operands = some i) : op = i.opcode ∧ operands = i.operands := by
  unfold dispatchInstr at h
  split at h
  all_goals
    repeat' split at h
    all_goals first
      | (obtain rfl := Option.some.inj h; exact ⟨‹_›, rfl⟩)
      | cases h

/-- What decodes is the instruction whose opcode and operand bytes those are. -/
theorem decodeOpcode_ok {op : Byte} {operands : List Byte} {i : Instr}
    (h : decodeOpcode op operands = .ok i) : op = i.opcode ∧ operands = i.operands := by
  unfold decodeOpcode at h
  split at h
  · split at h
    · next hi => cases h; exact aluInstr_some hi
    · cases h
  · split at h
    · next hi => cases h; exact dispatchInstr_some hi
    · cases h

/-- A defined opcode decodes with any operand bytes of the right number: the bytes are not checked
(R79). -/
theorem decodeOpcode_total (i : Instr) {operands : List Byte}
    (h : operands.length = i.operands.length) : ∃ j, decodeOpcode i.opcode operands = .ok j := by
  match operands with
  | [] => cases i <;> first | (simp only [Instr.opcode]; exact ⟨_, rfl⟩) | cases h
  | [a] => cases i <;> first | (simp only [Instr.opcode]; exact ⟨_, rfl⟩) | cases h
  | [a, b] => cases i <;> first | (simp only [Instr.opcode]; exact ⟨_, rfl⟩) | cases h
  | _ :: _ :: _ :: _ => cases i <;> cases h

/-- An opcode that does not decode is rejected by its ALU flag. -/
theorem decodeOpcode_cases (op : Byte) (operands : List Byte) :
    (∃ i, decodeOpcode op operands = .ok i ∧ op = i.opcode ∧ operands = i.operands) ∨
    decodeOpcode op operands =
      .error (if aluFlag op then .unsupportedAluOperation op else .unknownInstruction op) := by
  cases h : decodeOpcode op operands with
  | ok i => exact .inl ⟨i, rfl, decodeOpcode_ok h⟩
  | error r =>
    refine .inr (congrArg Except.error ?_)
    unfold decodeOpcode at h
    split at h
    · next ha =>
      rw [if_pos ha]
      split at h
      · cases h
      · exact (Except.error.inj h).symm
    · next ha =>
      rw [if_neg ha]
      split at h
      · cases h
      · exact (Except.error.inj h).symm

/-- Decoding when the operand bytes are there. -/
theorem decode_of_enough {op : Byte} {rest : List Byte} (h : operandsFetched op ≤ rest.length) :
    decode (op :: rest) =
      (decodeOpcode op (rest.take (operandsFetched op))).map
        (fun i => (i, rest.drop (operandsFetched op))) := by
  rw [decode, if_neg (by omega)]
  cases decodeOpcode op (rest.take (operandsFetched op)) <;> rfl

/-- Decoding when an operand byte is missing. -/
theorem decode_of_short {op : Byte} {rest : List Byte} (h : rest.length < operandsFetched op) :
    decode (op :: rest) = .error (.missingOperand (rest.length + 1)) := by
  rw [decode, if_pos h]

/-- Everything a decoded list of bytes says of the instruction. -/
theorem decode_ok {bytes rest : List Byte} {i : Instr} (h : decode bytes = .ok (i, rest)) :
    ∃ tail, bytes = i.opcode :: tail ∧ operandsFetched i.opcode ≤ tail.length ∧
      tail.take (operandsFetched i.opcode) = i.operands ∧
      rest = tail.drop (operandsFetched i.opcode) := by
  cases bytes with
  | nil => cases h
  | cons op tail =>
    rcases Nat.lt_or_ge tail.length (operandsFetched op) with hs | hs
    · rw [decode_of_short hs] at h; cases h
    · rw [decode_of_enough hs] at h
      cases hd : decodeOpcode op (tail.take (operandsFetched op)) with
      | error r => rw [hd] at h; cases h
      | ok j =>
        rw [hd] at h
        obtain ⟨rfl, hops⟩ := decodeOpcode_ok hd
        cases h
        exact ⟨tail, rfl, hs, hops, rfl⟩

end Sys2Proof
end

