-- ==== Sys2Proof/Laws/Memory.lean ====
section
/-! SUPPORT. What the memory operations do, byte by byte, and that each keeps the canonical form. -/

namespace Sys2Proof.Machine

@[simp] theorem Memory.read_nil (a : Nat) : Memory.read [] a = 0#8 := rfl

theorem Memory.read_cell (k : Nat) (w : Byte) (m : Memory) (a : Nat) :
    Memory.read ((k, w) :: m) a = if a = k then w else m.read a := rfl

theorem Memory.read_of_lt {m : Memory} {a : Nat} (h : ∀ c ∈ m, a < c.1) : m.read a = 0#8 := by
  induction m with
  | nil => rfl
  | cons c m ih =>
    obtain ⟨k, w⟩ := c
    have hk : a < k := h (k, w) (by simp)
    rw [read_cell, if_neg (by omega)]
    exact ih fun c hc => h c (by simp [hc])

/-- `cons` in front of cells above its address adds that one byte. -/
theorem Memory.read_cons {m : Memory} {a : Nat} (h : ∀ c ∈ m, a < c.1) (v : Byte) (b : Nat) :
    (Memory.cons a v m).read b = if b = a then v else m.read b := by
  unfold Memory.cons
  split
  · next hv =>
    split
    · next hb => subst hb; rw [read_of_lt h]; exact hv.symm
    · rfl
  · rfl

theorem Memory.above_of_wf {k : Nat} {w : Byte} {m : Memory} (h : Memory.wf ((k, w) :: m)) :
    (∀ c ∈ m, k < c.1) ∧ Memory.wf m ∧ k < 256 ∧ w ≠ 0#8 := by
  obtain ⟨hp, hc⟩ := h
  rw [List.pairwise_cons] at hp
  exact ⟨fun c hm => hp.1 c hm, ⟨hp.2, fun c hm => hc c (by simp [hm])⟩, hc (k, w) (by simp)⟩

/-- Reading after a write: the byte written at its address, every other byte as before (R53). -/
theorem Memory.read_write {m : Memory} (h : m.wf) (a : Nat) (v : Byte) (b : Nat) :
    (m.write a v).read b = if b = a then v else m.read b := by
  induction m with
  | nil => exact read_cons (by simp) v b
  | cons c m ih =>
    obtain ⟨k, w⟩ := c
    obtain ⟨hk, hm, -⟩ := above_of_wf h
    simp only [Memory.write]
    split
    · next hlt =>
      refine read_cons ?_ v b
      intro c hc
      rcases List.mem_cons.1 hc with rfl | hc
      · exact hlt
      · have := hk c hc; omega
    · split
      · next heq =>
        subst heq
        rw [read_cons hk, read_cell]
        by_cases hb : b = a <;> simp [hb]
      · next hne =>
        rw [read_cell, read_cell, ih hm]
        by_cases hb : b = k
        · subst hb; simp [Ne.symm hne]
        · simp [hb]

theorem Memory.cons_wf {m : Memory} {a : Nat} (h : m.wf) (ha : a < 256)
    (habove : ∀ c ∈ m, a < c.1) (v : Byte) : (Memory.cons a v m).wf := by
  unfold Memory.cons
  split
  · exact h
  · next hv =>
    refine ⟨List.pairwise_cons.2 ⟨fun c hc => habove c hc, h.1⟩, ?_⟩
    intro c hc
    rcases List.mem_cons.1 hc with rfl | hc
    · exact ⟨ha, hv⟩
    · exact h.2 c hc

theorem Memory.mem_cons {m : Memory} {a : Nat} {v : Byte} {c : Host.Cell}
    (h : c ∈ Memory.cons a v m) : c = (a, v) ∨ c ∈ m := by
  unfold Memory.cons at h
  split at h
  · exact .inr h
  · exact List.mem_cons.1 h

theorem Memory.mem_write {m : Memory} {a : Nat} {v : Byte} {c : Host.Cell}
    (h : c ∈ m.write a v) : c = (a, v) ∨ c ∈ m := by
  induction m with
  | nil => exact mem_cons h
  | cons d m ih =>
    obtain ⟨k, w⟩ := d
    simp only [Memory.write] at h
    split at h
    · exact mem_cons h
    · split at h
      · rcases mem_cons h with h | h
        · exact .inl h
        · exact .inr (by simp [h])
      · rcases List.mem_cons.1 h with h | h
        · exact .inr (by simp [h])
        · rcases ih h with h | h
          · exact .inl h
          · exact .inr (by simp [h])

/-- A write keeps the canonical form. -/
theorem Memory.write_wf {m : Memory} (h : m.wf) {a : Nat} (ha : a < 256) (v : Byte) :
    (m.write a v).wf := by
  induction m with
  | nil => exact cons_wf h ha (by simp) v
  | cons c m ih =>
    obtain ⟨k, w⟩ := c
    obtain ⟨hk, hm, hk256, hw⟩ := above_of_wf h
    simp only [Memory.write]
    split
    · next hlt =>
      refine cons_wf h ha ?_ v
      intro c hc
      rcases List.mem_cons.1 hc with rfl | hc
      · exact hlt
      · have := hk c hc; omega
    · split
      · next heq => subst heq; exact cons_wf hm ha hk v
      · next hlt hne =>
        refine ⟨List.pairwise_cons.2 ⟨?_, (ih hm).1⟩, ?_⟩
        · intro c hc
          rcases mem_write hc with rfl | hc
          · simp only; omega
          · exact hk c hc
        · intro c hc
          rcases List.mem_cons.1 hc with rfl | hc
          · exact ⟨hk256, hw⟩
          · exact (ih hm).2 c hc

theorem Memory.store_wf {m : Memory} (h : m.wf) (a v : Byte) : (m.write a.toNat v).wf :=
  write_wf h (by have := a.isLt; omega) v

theorem Memory.nil_wf : Memory.wf [] := by decide

theorem Memory.mem_ofImage {img : List Byte} {base : Nat} {c : Host.Cell}
    (h : c ∈ Memory.ofImage base img) : base ≤ c.1 ∧ c.1 < base + img.length := by
  induction img generalizing base with
  | nil => simp [Memory.ofImage] at h
  | cons v vs ih =>
    rcases mem_cons h with rfl | h
    · simp
    · have := ih h; simp; omega

/-- An image that fits is a memory in canonical form. -/
theorem Memory.ofImage_wf {img : List Byte} {base : Nat} (h : base + img.length ≤ 256) :
    (Memory.ofImage base img).wf := by
  induction img generalizing base with
  | nil => exact nil_wf
  | cons v vs ih =>
    simp only [List.length_cons] at h
    refine cons_wf (ih (by omega)) (by omega) ?_ v
    intro c hc
    have := (mem_ofImage hc).1
    omega

/-- Reading an image placed at `base` (R260): its bytes, and 0 elsewhere. -/
theorem Memory.read_ofImage (img : List Byte) (base a : Nat) :
    (Memory.ofImage base img).read a =
      if base ≤ a then (img[a - base]?).getD 0#8 else 0#8 := by
  induction img generalizing base with
  | nil => simp [Memory.ofImage]
  | cons v vs ih =>
    rw [Memory.ofImage, read_cons (fun c hc => by have := (mem_ofImage hc).1; omega), ih]
    by_cases h1 : a = base
    · subst h1; simp
    · by_cases h2 : base + 1 ≤ a
      · obtain ⟨d, rfl⟩ : ∃ d, a = base + 1 + d := ⟨a - (base + 1), by omega⟩
        have e1 : base + 1 + d - base = d + 1 := by omega
        have e2 : base + 1 + d - (base + 1) = d := by omega
        rw [if_neg h1, if_pos h2, if_pos (by omega), e1, e2, List.getElem?_cons_succ]
      · rw [if_neg h1, if_neg h2, if_neg (by omega)]

theorem Memory.place_wf {m : Memory} (h : m.wf) (addr : Nat) (vs : List Byte) :
    (m.place addr vs).wf := by
  induction vs generalizing m addr with
  | nil => exact h
  | cons v vs ih =>
    simp only [Memory.place]
    split
    · next ha => exact ih (write_wf h (by simpa using ha) v) _
    · exact ih h _

/-- Reading after bytes are placed at consecutive addresses that exist. -/
theorem Memory.read_place {m : Memory} (h : m.wf) {addr : Nat} {vs : List Byte}
    (hfit : addr + vs.length ≤ 256) (b : Nat) :
    (m.place addr vs).read b = if addr ≤ b then (vs[b - addr]?).getD (m.read b) else m.read b := by
  induction vs generalizing m addr with
  | nil => simp [Memory.place]
  | cons v vs ih =>
    simp only [List.length_cons] at hfit
    have ha : addr < Config.memSize := by simp only [Config.memSize]; omega
    rw [Memory.place, if_pos ha, ih (write_wf h (by omega) v) (by omega)]
    simp only [read_write h]
    by_cases h1 : b = addr
    · subst h1
      rw [if_neg (by omega)]
      simp
    · by_cases h2 : addr + 1 ≤ b
      · obtain ⟨d, rfl⟩ : ∃ d, b = addr + 1 + d := ⟨b - (addr + 1), by omega⟩
        have e1 : addr + 1 + d - addr = d + 1 := by omega
        have e2 : addr + 1 + d - (addr + 1) = d := by omega
        rw [if_pos h2, if_neg h1, if_pos (show addr ≤ addr + 1 + d by omega), e1, e2,
          List.getElem?_cons_succ]
      · rw [if_neg h2, if_neg h1, if_neg (show ¬ addr ≤ b by omega)]

/-- Memories in canonical form that read the same at every address are the same data. -/
theorem Memory.eq_of_read {m n : Memory} (hm : m.wf) (hn : n.wf)
    (h : ∀ a, m.read a = n.read a) : m = n := by
  induction m generalizing n with
  | nil =>
    cases n with
    | nil => rfl
    | cons d n =>
      obtain ⟨k, w⟩ := d
      have := h k
      simp only [read_nil, read_cell, if_true] at this
      exact absurd this.symm (above_of_wf hn).2.2.2
  | cons c m ih =>
    obtain ⟨k, w⟩ := c
    obtain ⟨hk, hm', -, hw⟩ := above_of_wf hm
    cases n with
    | nil =>
      have := h k
      simp only [read_nil, read_cell, if_true] at this
      exact absurd this hw
    | cons d n =>
      obtain ⟨j, x⟩ := d
      obtain ⟨hj, hn', -, hx⟩ := above_of_wf hn
      have hkj : k = j := by
        rcases Nat.lt_trichotomy k j with hlt | heq | hgt
        · have := h k
          rw [read_cell, if_pos rfl, read_of_lt] at this
          · exact absurd this hw
          · intro c hc
            rcases List.mem_cons.1 hc with rfl | hc
            · exact hlt
            · have := hj c hc; omega
        · exact heq
        · have := h j
          rw [read_cell (a := j) (k := j), if_pos rfl, read_of_lt] at this
          · exact absurd this.symm hx
          · intro c hc
            rcases List.mem_cons.1 hc with rfl | hc
            · exact hgt
            · have := hk c hc; omega
      subst hkj
      have hwx : w = x := by simpa [read_cell] using h k
      subst hwx
      congr 1
      refine ih hm' hn' fun a => ?_
      by_cases ha : a = k
      · subst ha; rw [read_of_lt hk, read_of_lt hj]
      · simpa [read_cell, ha] using h a

/-- A memory in canonical form lists no address above 255, so one reads as unlisted there. -/
theorem Memory.read_above {m : Memory} (h : m.wf) {a : Nat} (ha : 256 ≤ a) : m.read a = 0#8 := by
  induction m with
  | nil => rfl
  | cons c m ih =>
    obtain ⟨k, w⟩ := c
    obtain ⟨-, hm, hk, -⟩ := above_of_wf h
    rw [read_cell, if_neg (by omega)]
    exact ih hm

theorem load_eq (s : State) (a : Byte) : s.load a = s.mem.read a.toNat := rfl

/-- Loading after a store: the byte stored at its address (R53, R61). -/
theorem load_store_same {s : State} (h : s.mem.wf) (a v : Byte) : (s.store a v).load a = v :=
  (Memory.read_write h a.toNat v a.toNat).trans (if_pos rfl)

/-- A store changes the one byte at its address (R53). -/
theorem read_store_other {s : State} (h : s.mem.wf) (a v : Byte) {addr : Nat}
    (hne : addr ≠ a.toNat) : (s.store a v).mem.read addr = s.mem.read addr :=
  (Memory.read_write h a.toNat v addr).trans (if_neg hne)

end Sys2Proof.Machine
end

