-- ==== Sys2Proof/Laws/State.lean ====
section
/-! SUPPORT. Every field of the state after every update of the state: true by rfl, for simp. -/

namespace Sys2Proof.Machine

variable (s : State)

@[simp] theorem setPc_regs (t : PcWord) : (s.setPc t).regs = s.regs := rfl
@[simp] theorem setPc_pc (t : PcWord) : (s.setPc t).pc = t := rfl
@[simp] theorem setPc_fl (t : PcWord) : (s.setPc t).fl = s.fl := rfl
@[simp] theorem setPc_running (t : PcWord) : (s.setPc t).running = s.running := rfl
@[simp] theorem setPc_stopCause (t : PcWord) : (s.setPc t).stopCause = s.stopCause := rfl
@[simp] theorem setPc_stopInfo (t : PcWord) : (s.setPc t).stopInfo = s.stopInfo := rfl
@[simp] theorem setPc_mem (t : PcWord) : (s.setPc t).mem = s.mem := rfl
@[simp] theorem setPc_out (t : PcWord) : (s.setPc t).out = s.out := rfl
@[simp] theorem setPc_readReg (t : PcWord) (i : RegIndex) : (s.setPc t).readReg i = s.readReg i := rfl
@[simp] theorem setPc_sp (t : PcWord) : (s.setPc t).sp = s.sp := rfl

@[simp] theorem advancePc_regs (n : Nat) : (s.advancePc n).regs = s.regs := rfl
@[simp] theorem advancePc_pc (n : Nat) : (s.advancePc n).pc = s.pc + BitVec.ofNat 9 n := rfl
@[simp] theorem advancePc_fl (n : Nat) : (s.advancePc n).fl = s.fl := rfl
@[simp] theorem advancePc_running (n : Nat) : (s.advancePc n).running = s.running := rfl
@[simp] theorem advancePc_stopCause (n : Nat) : (s.advancePc n).stopCause = s.stopCause := rfl
@[simp] theorem advancePc_stopInfo (n : Nat) : (s.advancePc n).stopInfo = s.stopInfo := rfl
@[simp] theorem advancePc_mem (n : Nat) : (s.advancePc n).mem = s.mem := rfl
@[simp] theorem advancePc_out (n : Nat) : (s.advancePc n).out = s.out := rfl
@[simp] theorem advancePc_readReg (n : Nat) (i : RegIndex) : (s.advancePc n).readReg i = s.readReg i := rfl
@[simp] theorem advancePc_sp (n : Nat) : (s.advancePc n).sp = s.sp := rfl

@[simp] theorem writeReg_regs (r : RegIndex) (v : Byte) : (s.writeReg r v).regs = s.regs.set r.val v := rfl
@[simp] theorem writeReg_pc (r : RegIndex) (v : Byte) : (s.writeReg r v).pc = s.pc := rfl
@[simp] theorem writeReg_fl (r : RegIndex) (v : Byte) : (s.writeReg r v).fl = s.fl := rfl
@[simp] theorem writeReg_running (r : RegIndex) (v : Byte) : (s.writeReg r v).running = s.running := rfl
@[simp] theorem writeReg_stopCause (r : RegIndex) (v : Byte) : (s.writeReg r v).stopCause = s.stopCause := rfl
@[simp] theorem writeReg_stopInfo (r : RegIndex) (v : Byte) : (s.writeReg r v).stopInfo = s.stopInfo := rfl
@[simp] theorem writeReg_mem (r : RegIndex) (v : Byte) : (s.writeReg r v).mem = s.mem := rfl
@[simp] theorem writeReg_out (r : RegIndex) (v : Byte) : (s.writeReg r v).out = s.out := rfl

@[simp] theorem decSp_regs : (s.decSp).regs = s.regs.set 7 (s.sp - 1#8) := rfl
@[simp] theorem decSp_pc : (s.decSp).pc = s.pc := rfl
@[simp] theorem decSp_fl : (s.decSp).fl = s.fl := rfl
@[simp] theorem decSp_running : (s.decSp).running = s.running := rfl
@[simp] theorem decSp_stopCause : (s.decSp).stopCause = s.stopCause := rfl
@[simp] theorem decSp_stopInfo : (s.decSp).stopInfo = s.stopInfo := rfl
@[simp] theorem decSp_mem : (s.decSp).mem = s.mem := rfl
@[simp] theorem decSp_out : (s.decSp).out = s.out := rfl

@[simp] theorem incSp_regs : (s.incSp).regs = s.regs.set 7 (s.sp + 1#8) := rfl
@[simp] theorem incSp_pc : (s.incSp).pc = s.pc := rfl
@[simp] theorem incSp_fl : (s.incSp).fl = s.fl := rfl
@[simp] theorem incSp_running : (s.incSp).running = s.running := rfl
@[simp] theorem incSp_stopCause : (s.incSp).stopCause = s.stopCause := rfl
@[simp] theorem incSp_stopInfo : (s.incSp).stopInfo = s.stopInfo := rfl
@[simp] theorem incSp_mem : (s.incSp).mem = s.mem := rfl
@[simp] theorem incSp_out : (s.incSp).out = s.out := rfl

@[simp] theorem setFl_regs (v : Byte) : (s.setFl v).regs = s.regs := rfl
@[simp] theorem setFl_pc (v : Byte) : (s.setFl v).pc = s.pc := rfl
@[simp] theorem setFl_fl (v : Byte) : (s.setFl v).fl = v := rfl
@[simp] theorem setFl_running (v : Byte) : (s.setFl v).running = s.running := rfl
@[simp] theorem setFl_stopCause (v : Byte) : (s.setFl v).stopCause = s.stopCause := rfl
@[simp] theorem setFl_stopInfo (v : Byte) : (s.setFl v).stopInfo = s.stopInfo := rfl
@[simp] theorem setFl_mem (v : Byte) : (s.setFl v).mem = s.mem := rfl
@[simp] theorem setFl_out (v : Byte) : (s.setFl v).out = s.out := rfl
@[simp] theorem setFl_readReg (v : Byte) (i : RegIndex) : (s.setFl v).readReg i = s.readReg i := rfl
@[simp] theorem setFl_sp (v : Byte) : (s.setFl v).sp = s.sp := rfl

@[simp] theorem store_regs (a v : Byte) : (s.store a v).regs = s.regs := rfl
@[simp] theorem store_pc (a v : Byte) : (s.store a v).pc = s.pc := rfl
@[simp] theorem store_fl (a v : Byte) : (s.store a v).fl = s.fl := rfl
@[simp] theorem store_running (a v : Byte) : (s.store a v).running = s.running := rfl
@[simp] theorem store_stopCause (a v : Byte) : (s.store a v).stopCause = s.stopCause := rfl
@[simp] theorem store_stopInfo (a v : Byte) : (s.store a v).stopInfo = s.stopInfo := rfl
@[simp] theorem store_mem (a v : Byte) : (s.store a v).mem = s.mem.write a.toNat v := rfl
@[simp] theorem store_out (a v : Byte) : (s.store a v).out = s.out := rfl
@[simp] theorem store_readReg (a v : Byte) (i : RegIndex) : (s.store a v).readReg i = s.readReg i := rfl
@[simp] theorem store_sp (a v : Byte) : (s.store a v).sp = s.sp := rfl

@[simp] theorem emit_regs (v : Byte) : (s.emit v).regs = s.regs := rfl
@[simp] theorem emit_pc (v : Byte) : (s.emit v).pc = s.pc := rfl
@[simp] theorem emit_fl (v : Byte) : (s.emit v).fl = s.fl := rfl
@[simp] theorem emit_running (v : Byte) : (s.emit v).running = s.running := rfl
@[simp] theorem emit_stopCause (v : Byte) : (s.emit v).stopCause = s.stopCause := rfl
@[simp] theorem emit_stopInfo (v : Byte) : (s.emit v).stopInfo = s.stopInfo := rfl
@[simp] theorem emit_mem (v : Byte) : (s.emit v).mem = s.mem := rfl
@[simp] theorem emit_out (v : Byte) : (s.emit v).out = s.out ++ [v] := rfl
@[simp] theorem emit_readReg (v : Byte) (i : RegIndex) : (s.emit v).readReg i = s.readReg i := rfl
@[simp] theorem emit_sp (v : Byte) : (s.emit v).sp = s.sp := rfl

@[simp] theorem halt_regs : (s.halt).regs = s.regs := rfl
@[simp] theorem halt_pc : (s.halt).pc = s.pc := rfl
@[simp] theorem halt_fl : (s.halt).fl = s.fl := rfl
@[simp] theorem halt_running : (s.halt).running = false := rfl
@[simp] theorem halt_stopCause : (s.halt).stopCause = 1#3 := rfl
@[simp] theorem halt_stopInfo : (s.halt).stopInfo = s.stopInfo := rfl
@[simp] theorem halt_mem : (s.halt).mem = s.mem := rfl
@[simp] theorem halt_out : (s.halt).out = s.out := rfl
@[simp] theorem halt_readReg (i : RegIndex) : (s.halt).readReg i = s.readReg i := rfl
@[simp] theorem halt_sp : (s.halt).sp = s.sp := rfl

@[simp] theorem raise_regs (c : Cause) : (s.raise c).regs = s.regs := rfl
@[simp] theorem raise_pc (c : Cause) : (s.raise c).pc = s.pc := rfl
@[simp] theorem raise_fl (c : Cause) : (s.raise c).fl = s.fl := rfl
@[simp] theorem raise_running (c : Cause) : (s.raise c).running = false := rfl
@[simp] theorem raise_stopCause (c : Cause) : (s.raise c).stopCause = c.code := rfl
@[simp] theorem raise_stopInfo (c : Cause) : (s.raise c).stopInfo = c.info := rfl
@[simp] theorem raise_mem (c : Cause) : (s.raise c).mem = s.mem := rfl
@[simp] theorem raise_out (c : Cause) : (s.raise c).out = s.out := rfl
@[simp] theorem raise_readReg (c : Cause) (i : RegIndex) : (s.raise c).readReg i = s.readReg i := rfl
@[simp] theorem raise_sp (c : Cause) : (s.raise c).sp = s.sp := rfl

@[simp] theorem readReg_writeReg_same (r : RegIndex) (v : Byte) : (s.writeReg r v).readReg r = v := by
  simp [State.readReg]

theorem readReg_writeReg (r i : RegIndex) (v : Byte) :
    (s.writeReg r v).readReg i = if i = r then v else s.readReg i := by
  simp [State.readReg, Vector.getElem_set, Fin.ext_iff, eq_comm]

@[simp] theorem readReg_writeReg_other {r i : RegIndex} (h : i ≠ r) (v : Byte) :
    (s.writeReg r v).readReg i = s.readReg i := by
  rw [readReg_writeReg, if_neg h]

theorem sp_writeReg (r : RegIndex) (v : Byte) :
    (s.writeReg r v).sp = if r = 7 then v else s.sp := by
  simp [State.sp, readReg_writeReg, eq_comm]

@[simp] theorem decSp_sp : s.decSp.sp = s.sp - 1#8 := by simp [State.decSp, State.sp]

@[simp] theorem incSp_sp : s.incSp.sp = s.sp + 1#8 := by simp [State.incSp, State.sp]

theorem readReg_decSp (i : RegIndex) :
    s.decSp.readReg i = if i = 7 then s.sp - 1#8 else s.readReg i := by
  simp [State.decSp, readReg_writeReg]

theorem readReg_incSp (i : RegIndex) :
    s.incSp.readReg i = if i = 7 then s.sp + 1#8 else s.readReg i := by
  simp [State.incSp, readReg_writeReg]

@[simp] theorem readReg_seven : s.readReg 7 = s.sp := rfl

/-! The loop's advance changes PC alone. -/

theorem autoAdvance_eq (op : Byte) : s.autoAdvance op =
    s.setPc (if pcSetterFlag op then s.pc else s.pc + BitVec.ofNat 9 (instrLength op)) := by
  unfold State.autoAdvance
  split <;> rfl

@[simp] theorem autoAdvance_regs (op : Byte) : (s.autoAdvance op).regs = s.regs := by
  rw [autoAdvance_eq]; rfl
theorem autoAdvance_pc (op : Byte) : (s.autoAdvance op).pc =
    if pcSetterFlag op then s.pc else s.pc + BitVec.ofNat 9 (instrLength op) := by
  rw [autoAdvance_eq]; rfl
@[simp] theorem autoAdvance_fl (op : Byte) : (s.autoAdvance op).fl = s.fl := by
  rw [autoAdvance_eq]; rfl
@[simp] theorem autoAdvance_running (op : Byte) : (s.autoAdvance op).running = s.running := by
  rw [autoAdvance_eq]; rfl
@[simp] theorem autoAdvance_stopCause (op : Byte) : (s.autoAdvance op).stopCause = s.stopCause := by
  rw [autoAdvance_eq]; rfl
@[simp] theorem autoAdvance_stopInfo (op : Byte) : (s.autoAdvance op).stopInfo = s.stopInfo := by
  rw [autoAdvance_eq]; rfl
@[simp] theorem autoAdvance_mem (op : Byte) : (s.autoAdvance op).mem = s.mem := by
  rw [autoAdvance_eq]; rfl
@[simp] theorem autoAdvance_out (op : Byte) : (s.autoAdvance op).out = s.out := by
  rw [autoAdvance_eq]; rfl
@[simp] theorem autoAdvance_readReg (op : Byte) (i : RegIndex) :
    (s.autoAdvance op).readReg i = s.readReg i := by
  rw [autoAdvance_eq]; rfl
@[simp] theorem autoAdvance_sp (op : Byte) : (s.autoAdvance op).sp = s.sp := by
  rw [autoAdvance_eq]; rfl

/-! KIND and VALUE are read back as they were recorded (R34). -/

theorem extract_kind (k : BitVec 3) (v : BitVec 9) : (k ++ v).extractLsb' 9 3 = k := by
  ext i hi
  rw [BitVec.getElem_extractLsb', BitVec.getLsbD_append, if_neg (by omega), Nat.add_sub_cancel_left,
    BitVec.getLsbD_eq_getElem hi]

theorem extract_value (k : BitVec 3) (v : BitVec 9) : (k ++ v).extractLsb' 0 9 = v := by
  ext i hi
  rw [BitVec.getElem_extractLsb', Nat.zero_add, BitVec.getLsbD_append, if_pos hi,
    BitVec.getLsbD_eq_getElem hi]

@[simp] theorem raise_stopKind (c : Cause) : (s.raise c).stopKind = c.kind :=
  extract_kind c.kind c.value

@[simp] theorem raise_stopValue (c : Cause) : (s.raise c).stopValue = c.value :=
  extract_value c.kind c.value

/-- Two states with equal fields are equal. -/
theorem State.eq_of_fields {s t : State} (hr : s.regs = t.regs) (hp : s.pc = t.pc)
    (hf : s.fl = t.fl) (hn : s.running = t.running) (hc : s.stopCause = t.stopCause)
    (hi : s.stopInfo = t.stopInfo) (hm : s.mem = t.mem) (ho : s.out = t.out) : s = t := by
  cases s; cases t; simp_all

end Sys2Proof.Machine
end

