-- ==== Sys2Proof/Laws/Ops.lean ====
section
/-! SUPPORT. What each shared operation of the meanings can do, said once: the register check, the
operand forms, how a rule concludes, and the rules that several instructions share. -/

namespace Sys2Proof.Machine

/-! ## The register check -/

theorem checkreg_of_names {ra : Byte} {a : RegIndex} (h : ra.toNat = a.val) :
    checkreg ra = .ok a := by
  have h8 : ra.toNat < 8 := by have := a.isLt; omega
  rw [checkreg, dif_pos h8]
  exact congrArg Except.ok (Fin.ext h)

theorem checkreg_of_above {ra : Byte} (h : 7 < ra.toNat) :
    checkreg ra = .error (.outOfRangeAccess .registerIndex (zext9 ra)) := by
  simp [checkreg, show ¬ ra.toNat < 8 by omega]

/-- A byte that is no more than 7 names a register. -/
theorem names_of_le {ra : Byte} (h : ra.toNat ≤ 7) : ∃ a : RegIndex, ra.toNat = a.val :=
  ⟨⟨ra.toNat, by omega⟩, rfl⟩

theorem names_or_above (ra : Byte) : (∃ a : RegIndex, ra.toNat = a.val) ∨ 7 < ra.toNat := by
  rcases Nat.lt_or_ge 7 ra.toNat with h | h
  · exact .inr h
  · exact .inl (names_of_le h)

theorem withReg_of_names {ra : Byte} {a : RegIndex} (h : ra.toNat = a.val)
    (rule : RegIndex → Except Cause State) : withReg ra rule = rule a := by
  simp [withReg, checkreg_of_names h]

theorem withReg_of_above {ra : Byte} (h : 7 < ra.toNat) (rule : RegIndex → Except Cause State) :
    withReg ra rule = .error (.outOfRangeAccess .registerIndex (zext9 ra)) := by
  simp [withReg, checkreg_of_above h]

theorem withRegs_of_names {ra rb : Byte} {a b : RegIndex} (ha : ra.toNat = a.val)
    (hb : rb.toNat = b.val) (rule : RegIndex → RegIndex → Except Cause State) :
    withRegs ra rb rule = rule a b := by
  rw [withRegs, withReg_of_names ha, withReg_of_names hb]

theorem withRegs_of_above_left {ra : Byte} (h : 7 < ra.toNat) (rb : Byte)
    (rule : RegIndex → RegIndex → Except Cause State) :
    withRegs ra rb rule = .error (.outOfRangeAccess .registerIndex (zext9 ra)) :=
  withReg_of_above h _

theorem withRegs_of_above_right {ra rb : Byte} (ha : ra.toNat ≤ 7) (hb : 7 < rb.toNat)
    (rule : RegIndex → RegIndex → Except Cause State) :
    withRegs ra rb rule = .error (.outOfRangeAccess .registerIndex (zext9 rb)) := by
  obtain ⟨a, ha⟩ := names_of_le ha
  rw [withRegs, withReg_of_names ha, withReg_of_above hb]

/-- What a rule with one register operand can answer. -/
theorem withReg_cases (ra : Byte) (rule : RegIndex → Except Cause State) :
    (∃ a : RegIndex, ra.toNat = a.val ∧ withReg ra rule = rule a) ∨
    (7 < ra.toNat ∧ withReg ra rule = .error (.outOfRangeAccess .registerIndex (zext9 ra))) := by
  rcases names_or_above ra with ⟨a, h⟩ | h
  · exact .inl ⟨a, h, withReg_of_names h rule⟩
  · exact .inr ⟨h, withReg_of_above h rule⟩

/-- What a rule with two register operands can answer. -/
theorem withRegs_cases (ra rb : Byte) (rule : RegIndex → RegIndex → Except Cause State) :
    (∃ a b : RegIndex, ra.toNat = a.val ∧ rb.toNat = b.val ∧ withRegs ra rb rule = rule a b) ∨
    (7 < ra.toNat ∧
      withRegs ra rb rule = .error (.outOfRangeAccess .registerIndex (zext9 ra))) ∨
    (ra.toNat ≤ 7 ∧ 7 < rb.toNat ∧
      withRegs ra rb rule = .error (.outOfRangeAccess .registerIndex (zext9 rb))) := by
  rcases names_or_above ra with ⟨a, ha⟩ | ha
  · have ha7 : ra.toNat ≤ 7 := by have := a.isLt; omega
    rcases names_or_above rb with ⟨b, hb⟩ | hb
    · exact .inl ⟨a, b, ha, hb, withRegs_of_names ha hb rule⟩
    · exact .inr (.inr ⟨ha7, hb, withRegs_of_above_right ha7 hb rule⟩)
  · exact .inr (.inl ⟨ha, withRegs_of_above_left ha rb rule⟩)

/-! ## How a rule concludes -/

@[simp] theorem conclude_ok (op : Byte) (s t : State) :
    conclude op s (.ok t) = .next (t.autoAdvance op) := rfl

@[simp] theorem conclude_error (op : Byte) (s : State) (c : Cause) :
    conclude op s (.error c) = .next (s.raise c) := rfl

/-- A concluded rule has a next state. -/
theorem conclude_next (op : Byte) (s : State) (r : Except Cause State) :
    ∃ t, conclude op s r = .next t := by
  cases r with
  | ok t => exact ⟨_, rfl⟩
  | error c => exact ⟨_, rfl⟩

/-- If a concluded rule answers `t`, the rule completed, or it raised and `t` is its fault entry. -/
theorem conclude_cases {op : Byte} {s t : State} {r : Except Cause State}
    (h : conclude op s r = .next t) :
    (∃ u, r = .ok u ∧ t = u.autoAdvance op) ∨ (∃ c, r = .error c ∧ t = s.raise c) := by
  cases r with
  | ok u => exact .inl ⟨u, rfl, by simpa using h.symm⟩
  | error c => exact .inr ⟨c, rfl, by simpa using h.symm⟩

/-! The loop's advance by each opcode (R110, R111). -/

@[simp] theorem autoAdvance_hlt (s : State) : s.autoAdvance Opcode.hlt = s.advancePc 1 := rfl
@[simp] theorem autoAdvance_ldi (s : State) : s.autoAdvance Opcode.ldi = s.advancePc 3 := rfl
@[simp] theorem autoAdvance_prn (s : State) : s.autoAdvance Opcode.prn = s.advancePc 2 := rfl
@[simp] theorem autoAdvance_push (s : State) : s.autoAdvance Opcode.push = s.advancePc 2 := rfl
@[simp] theorem autoAdvance_pop (s : State) : s.autoAdvance Opcode.pop = s.advancePc 2 := rfl
@[simp] theorem autoAdvance_call (s : State) : s.autoAdvance Opcode.call = s := rfl
@[simp] theorem autoAdvance_ret (s : State) : s.autoAdvance Opcode.ret = s := rfl
@[simp] theorem autoAdvance_jmp (s : State) : s.autoAdvance Opcode.jmp = s := rfl
@[simp] theorem autoAdvance_jeq (s : State) : s.autoAdvance Opcode.jeq = s := rfl
@[simp] theorem autoAdvance_jne (s : State) : s.autoAdvance Opcode.jne = s := rfl
@[simp] theorem autoAdvance_add (s : State) : s.autoAdvance Opcode.add = s.advancePc 3 := rfl
@[simp] theorem autoAdvance_sub (s : State) : s.autoAdvance Opcode.sub = s.advancePc 3 := rfl
@[simp] theorem autoAdvance_mul (s : State) : s.autoAdvance Opcode.mul = s.advancePc 3 := rfl
@[simp] theorem autoAdvance_div (s : State) : s.autoAdvance Opcode.div = s.advancePc 3 := rfl
@[simp] theorem autoAdvance_cmp (s : State) : s.autoAdvance Opcode.cmp = s.advancePc 3 := rfl

/-! ## ALU results (R135, R136) -/

theorem aluAdd_toNat (x y : Byte) : (aluAdd x y).toNat = (x.toNat + y.toNat) % 256 := by
  simp [aluAdd]

theorem aluSub_toNat (x y : Byte) : (aluSub x y).toNat = (256 + x.toNat - y.toNat) % 256 := by
  have := x.isLt
  have := y.isLt
  simp only [aluSub, BitVec.toNat_ofInt]
  omega

theorem aluMul_toNat (x y : Byte) : (aluMul x y).toNat = (x.toNat * y.toNat) % 256 := by
  simp [aluMul]

theorem aluDiv_toNat (x y : Byte) : (aluDiv x y).toNat = x.toNat / y.toNat := by
  have h : x.toNat / y.toNat < 2 ^ 8 := Nat.lt_of_le_of_lt (Nat.div_le_self _ _) x.isLt
  rw [aluDiv, BitVec.toNat_ofNat, Nat.mod_eq_of_lt h]

/-- A comparison's flags are one of E, G and L (R134). -/
theorem compareFlags_cases (x y : Byte) :
    (x = y ∧ compareFlags x y = 1#8) ∨ (y.toNat < x.toNat ∧ compareFlags x y = 2#8) ∨
    (x.toNat < y.toNat ∧ compareFlags x y = 4#8) := by
  unfold compareFlags flEqual flGreater flLess
  rcases Nat.lt_trichotomy x.toNat y.toNat with h | h | h
  · exact .inr (.inr ⟨h, by rw [if_neg (by omega), if_neg (by omega)]⟩)
  · exact .inl ⟨BitVec.eq_of_toNat_eq h, by rw [if_pos h]⟩
  · exact .inr (.inl ⟨h, by rw [if_neg (by omega), if_pos h]⟩)

/-- A comparison sets E exactly when the operands are equal. -/
theorem compareFlags_equal (x y : Byte) : (compareFlags x y).getLsbD 0 = decide (x = y) := by
  rcases compareFlags_cases x y with ⟨h, e⟩ | ⟨h, e⟩ | ⟨h, e⟩
  · rw [e, decide_eq_true h]; rfl
  · have hne : x ≠ y := fun hxy => by subst hxy; omega
    rw [e, decide_eq_false hne]; rfl
  · have hne : x ≠ y := fun hxy => by subst hxy; omega
    rw [e, decide_eq_false hne]; rfl

/-! ## The rules that several instructions share -/

/-- What ADD, SUB and MUL can do: write R[a], or raise for ra or rb. -/
theorem aluWrite_cases (f : Byte → Byte → Byte) (ra rb : Byte) (s : State) :
    (∃ a b : RegIndex, ra.toNat = a.val ∧ rb.toNat = b.val ∧
      aluWrite f ra rb s = .ok (s.writeReg a (f (s.readReg a) (s.readReg b)))) ∨
    (7 < ra.toNat ∧
      aluWrite f ra rb s = .error (.outOfRangeAccess .registerIndex (zext9 ra))) ∨
    (ra.toNat ≤ 7 ∧ 7 < rb.toNat ∧
      aluWrite f ra rb s = .error (.outOfRangeAccess .registerIndex (zext9 rb))) :=
  withRegs_cases ra rb _

/-- What JEQ and JNE can do: jump, advance past themselves, or raise for ra. -/
theorem jumpIf_cases (taken : Bool) (ra : Byte) (s : State) :
    (∃ a : RegIndex, ra.toNat = a.val ∧
      jumpIf taken ra s =
        .ok (s.setPc (if taken then zext9 (s.readReg a) else s.pc + 2#9))) ∨
    (7 < ra.toNat ∧
      jumpIf taken ra s = .error (.outOfRangeAccess .registerIndex (zext9 ra))) := by
  rcases withReg_cases ra
    (fun a => .ok (if taken then s.setPc (zext9 (s.readReg a)) else s.advancePc 2)) with h | h
  · obtain ⟨a, ha, h⟩ := h
    refine .inl ⟨a, ha, h.trans ?_⟩
    cases taken <;> rfl
  · exact .inr h

@[simp] theorem zext9_toNat (v : Byte) : (zext9 v).toNat = v.toNat := by
  have := v.isLt
  simp only [zext9, BitVec.toNat_setWidth]
  omega

theorem flagE_eq (s : State) : s.flagE = decide (s.fl.toNat % 2 = 1) := by
  simp only [State.flagE, BitVec.getLsbD, Nat.testBit_zero]

/-! ## Every instruction answers -/

/-- Every meaning concludes a rule, with the advance of its own opcode (R109 to R111). -/
theorem exec_eq_conclude (i : Instr) (s : State) : ∃ r, exec i s = conclude i.opcode s r := by
  cases i
  case hlt => exact ⟨.ok s.halt, rfl⟩
  case ret => exact ⟨.ok (s.setPc (zext9 (s.load s.sp))).incSp, rfl⟩
  all_goals exact ⟨_, rfl⟩

/-- No instruction faults or is refused. -/
theorem exec_next (i : Instr) (s : State) : ∃ t, exec i s = .next t := by
  obtain ⟨r, hr⟩ := exec_eq_conclude i s
  exact hr ▸ conclude_next i.opcode s r

end Sys2Proof.Machine
end

