-- ==== Sys2Proof/Laws/Exec.lean ====
section
/-! SUPPORT. One pair of lemmas per instruction: what it answers when its operands are legal (`_legal`),
and everything it can answer (`_next`). -/

namespace Sys2Proof.Machine

variable {s t : State} {ra rb : Byte} {a b : RegIndex}

/-- The fault entry of a register operand above 7 (R107). -/
abbrev registerFault (s : State) (x : Byte) : State :=
  s.raise (.outOfRangeAccess .registerIndex (zext9 x))

/-- What an instruction with one register operand can answer. -/
theorem conclude_withReg_next {op : Byte} {rule : RegIndex → Except Cause State}
    (h : conclude op s (withReg ra rule) = .next t) :
    (∃ a : RegIndex, ra.toNat = a.val ∧ conclude op s (rule a) = .next t) ∨
    (7 < ra.toNat ∧ t = registerFault s ra) := by
  rcases withReg_cases ra rule with ⟨a, ha, e⟩ | ⟨h7, e⟩
  · exact .inl ⟨a, ha, e ▸ h⟩
  · rw [e, conclude_error] at h
    exact .inr ⟨h7, (Host.Outcome.next.inj h).symm⟩

/-- What an instruction with two register operands can answer. -/
theorem conclude_withRegs_next {op : Byte} {rule : RegIndex → RegIndex → Except Cause State}
    (h : conclude op s (withRegs ra rb rule) = .next t) :
    (∃ a b : RegIndex, ra.toNat = a.val ∧ rb.toNat = b.val ∧
      conclude op s (rule a b) = .next t) ∨
    (7 < ra.toNat ∧ t = registerFault s ra) ∨
    (ra.toNat ≤ 7 ∧ 7 < rb.toNat ∧ t = registerFault s rb) := by
  rcases withRegs_cases ra rb rule with ⟨a, b, ha, hb, e⟩ | ⟨h7, e⟩ | ⟨h7, h8, e⟩
  · exact .inl ⟨a, b, ha, hb, e ▸ h⟩
  · rw [e, conclude_error] at h
    exact .inr (.inl ⟨h7, (Host.Outcome.next.inj h).symm⟩)
  · rw [e, conclude_error] at h
    exact .inr (.inr ⟨h7, h8, (Host.Outcome.next.inj h).symm⟩)

/-! ## Instructions without operands -/

theorem execHlt_legal (s : State) : execHlt s = .next (s.halt.advancePc 1) := rfl

theorem execRet_legal (s : State) :
    execRet s = .next (s.setPc (zext9 (s.load s.sp))).incSp := rfl

/-! ## Instructions with one register operand -/

theorem execLdi_legal (ha : ra.toNat = a.val) (imm : Byte) :
    execLdi ra imm s = .next ((s.writeReg a imm).advancePc 3) := by
  rw [execLdi, withReg_of_names ha]; rfl

theorem execLdi_next {imm : Byte} (h : execLdi ra imm s = .next t) :
    (∃ a : RegIndex, ra.toNat = a.val ∧ t = (s.writeReg a imm).advancePc 3) ∨
    (7 < ra.toNat ∧ t = registerFault s ra) := by
  rcases conclude_withReg_next h with ⟨a, ha, -⟩ | h
  · rw [execLdi_legal ha] at h
    exact .inl ⟨a, ha, (Host.Outcome.next.inj h).symm⟩
  · exact .inr h

theorem execPrn_legal (ha : ra.toNat = a.val) :
    execPrn ra s = .next ((s.emit (s.readReg a)).advancePc 2) := by
  rw [execPrn, withReg_of_names ha]; rfl

theorem execPrn_next (h : execPrn ra s = .next t) :
    (∃ a : RegIndex, ra.toNat = a.val ∧ t = (s.emit (s.readReg a)).advancePc 2) ∨
    (7 < ra.toNat ∧ t = registerFault s ra) := by
  rcases conclude_withReg_next h with ⟨a, ha, -⟩ | h
  · rw [execPrn_legal ha] at h
    exact .inl ⟨a, ha, (Host.Outcome.next.inj h).symm⟩
  · exact .inr h

theorem execPush_legal (ha : ra.toNat = a.val) :
    execPush ra s = .next ((s.decSp.store s.decSp.sp (s.decSp.readReg a)).advancePc 2) := by
  rw [execPush, withReg_of_names ha]; rfl

theorem execPush_next (h : execPush ra s = .next t) :
    (∃ a : RegIndex, ra.toNat = a.val ∧ t = (s.decSp.store s.decSp.sp (s.decSp.readReg a)).advancePc 2) ∨
    (7 < ra.toNat ∧ t = registerFault s ra) := by
  rcases conclude_withReg_next h with ⟨a, ha, -⟩ | h
  · rw [execPush_legal ha] at h
    exact .inl ⟨a, ha, (Host.Outcome.next.inj h).symm⟩
  · exact .inr h

theorem execPop_legal (ha : ra.toNat = a.val) :
    execPop ra s = .next ((s.writeReg a (s.load s.sp)).incSp.advancePc 2) := by
  rw [execPop, withReg_of_names ha]; rfl

theorem execPop_next (h : execPop ra s = .next t) :
    (∃ a : RegIndex, ra.toNat = a.val ∧ t = (s.writeReg a (s.load s.sp)).incSp.advancePc 2) ∨
    (7 < ra.toNat ∧ t = registerFault s ra) := by
  rcases conclude_withReg_next h with ⟨a, ha, -⟩ | h
  · rw [execPop_legal ha] at h
    exact .inl ⟨a, ha, (Host.Outcome.next.inj h).symm⟩
  · exact .inr h

theorem execJmp_legal (ha : ra.toNat = a.val) :
    execJmp ra s = .next (s.setPc (zext9 (s.readReg a))) := by
  rw [execJmp, withReg_of_names ha]; rfl

theorem execJmp_next (h : execJmp ra s = .next t) :
    (∃ a : RegIndex, ra.toNat = a.val ∧ t = s.setPc (zext9 (s.readReg a))) ∨
    (7 < ra.toNat ∧ t = registerFault s ra) := by
  rcases conclude_withReg_next h with ⟨a, ha, -⟩ | h
  · rw [execJmp_legal ha] at h
    exact .inl ⟨a, ha, (Host.Outcome.next.inj h).symm⟩
  · exact .inr h

theorem execJeq_legal (ha : ra.toNat = a.val) :
    execJeq ra s = .next (s.setPc (if s.flagE then zext9 (s.readReg a) else s.pc + 2#9)) := by
  rw [execJeq, jumpIf, withReg_of_names ha]
  cases s.flagE <;> rfl

theorem execJeq_next (h : execJeq ra s = .next t) :
    (∃ a : RegIndex, ra.toNat = a.val ∧ t = s.setPc (if s.flagE then zext9 (s.readReg a) else s.pc + 2#9)) ∨
    (7 < ra.toNat ∧ t = registerFault s ra) := by
  rcases conclude_withReg_next h with ⟨a, ha, -⟩ | h
  · rw [execJeq_legal ha] at h
    exact .inl ⟨a, ha, (Host.Outcome.next.inj h).symm⟩
  · exact .inr h

theorem execJne_legal (ha : ra.toNat = a.val) :
    execJne ra s = .next (s.setPc (if s.flagE then s.pc + 2#9 else zext9 (s.readReg a))) := by
  rw [execJne, jumpIf, withReg_of_names ha]
  cases s.flagE <;> rfl

theorem execJne_next (h : execJne ra s = .next t) :
    (∃ a : RegIndex, ra.toNat = a.val ∧ t = s.setPc (if s.flagE then s.pc + 2#9 else zext9 (s.readReg a))) ∨
    (7 < ra.toNat ∧ t = registerFault s ra) := by
  rcases conclude_withReg_next h with ⟨a, ha, -⟩ | h
  · rw [execJne_legal ha] at h
    exact .inl ⟨a, ha, (Host.Outcome.next.inj h).symm⟩
  · exact .inr h

theorem execCall_legal (ha : ra.toNat = a.val) (hpc : s.pc.toNat + 2 ≤ 255) :
    execCall ra s = .next ((s.decSp.store s.decSp.sp (BitVec.ofNat 8 (s.pc.toNat + 2))).setPc
      (zext9 (s.decSp.readReg a))) := by
  have h : ¬ returnAddress s > 255 := by unfold returnAddress; omega
  rw [execCall, withReg_of_names ha, if_neg h]; rfl

theorem execCall_noRoom (ha : ra.toNat = a.val) (hpc : 255 < s.pc.toNat + 2) :
    execCall ra s =
      .next (s.raise (.outOfRangeAccess .returnAddress (BitVec.ofNat 9 (s.pc.toNat + 2)))) := by
  have h : returnAddress s > 255 := hpc
  rw [execCall, withReg_of_names ha, if_pos h]; rfl

theorem execCall_next (h : execCall ra s = .next t) :
    (∃ a : RegIndex, ra.toNat = a.val ∧ s.pc.toNat + 2 ≤ 255 ∧
      t = (s.decSp.store s.decSp.sp (BitVec.ofNat 8 (s.pc.toNat + 2))).setPc
        (zext9 (s.decSp.readReg a))) ∨
    (∃ a : RegIndex, ra.toNat = a.val ∧ 255 < s.pc.toNat + 2 ∧
      t = s.raise (.outOfRangeAccess .returnAddress (BitVec.ofNat 9 (s.pc.toNat + 2)))) ∨
    (7 < ra.toNat ∧ t = registerFault s ra) := by
  rcases conclude_withReg_next h with ⟨a, ha, -⟩ | h
  · rcases Nat.lt_or_ge 255 (s.pc.toNat + 2) with hpc | hpc
    · rw [execCall_noRoom ha hpc] at h
      exact .inr (.inl ⟨a, ha, hpc, (Host.Outcome.next.inj h).symm⟩)
    · rw [execCall_legal ha hpc] at h
      exact .inl ⟨a, ha, hpc, (Host.Outcome.next.inj h).symm⟩
  · exact .inr (.inr h)

/-! ## Instructions with two register operands -/

theorem execAdd_legal (ha : ra.toNat = a.val) (hb : rb.toNat = b.val) :
    execAdd ra rb s = .next ((s.writeReg a (aluAdd (s.readReg a) (s.readReg b))).advancePc 3) := by
  rw [execAdd, aluWrite, withRegs_of_names ha hb]; rfl

theorem execAdd_next (h : execAdd ra rb s = .next t) :
    (∃ a b : RegIndex, ra.toNat = a.val ∧ rb.toNat = b.val ∧
      t = (s.writeReg a (aluAdd (s.readReg a) (s.readReg b))).advancePc 3) ∨
    (7 < ra.toNat ∧ t = registerFault s ra) ∨
    (ra.toNat ≤ 7 ∧ 7 < rb.toNat ∧ t = registerFault s rb) := by
  rcases conclude_withRegs_next h with ⟨a, b, ha, hb, -⟩ | h
  · rw [execAdd_legal ha hb] at h
    exact .inl ⟨a, b, ha, hb, (Host.Outcome.next.inj h).symm⟩
  · exact .inr h

theorem execSub_legal (ha : ra.toNat = a.val) (hb : rb.toNat = b.val) :
    execSub ra rb s = .next ((s.writeReg a (aluSub (s.readReg a) (s.readReg b))).advancePc 3) := by
  rw [execSub, aluWrite, withRegs_of_names ha hb]; rfl

theorem execSub_next (h : execSub ra rb s = .next t) :
    (∃ a b : RegIndex, ra.toNat = a.val ∧ rb.toNat = b.val ∧
      t = (s.writeReg a (aluSub (s.readReg a) (s.readReg b))).advancePc 3) ∨
    (7 < ra.toNat ∧ t = registerFault s ra) ∨
    (ra.toNat ≤ 7 ∧ 7 < rb.toNat ∧ t = registerFault s rb) := by
  rcases conclude_withRegs_next h with ⟨a, b, ha, hb, -⟩ | h
  · rw [execSub_legal ha hb] at h
    exact .inl ⟨a, b, ha, hb, (Host.Outcome.next.inj h).symm⟩
  · exact .inr h

theorem execMul_legal (ha : ra.toNat = a.val) (hb : rb.toNat = b.val) :
    execMul ra rb s = .next ((s.writeReg a (aluMul (s.readReg a) (s.readReg b))).advancePc 3) := by
  rw [execMul, aluWrite, withRegs_of_names ha hb]; rfl

theorem execMul_next (h : execMul ra rb s = .next t) :
    (∃ a b : RegIndex, ra.toNat = a.val ∧ rb.toNat = b.val ∧
      t = (s.writeReg a (aluMul (s.readReg a) (s.readReg b))).advancePc 3) ∨
    (7 < ra.toNat ∧ t = registerFault s ra) ∨
    (ra.toNat ≤ 7 ∧ 7 < rb.toNat ∧ t = registerFault s rb) := by
  rcases conclude_withRegs_next h with ⟨a, b, ha, hb, -⟩ | h
  · rw [execMul_legal ha hb] at h
    exact .inl ⟨a, b, ha, hb, (Host.Outcome.next.inj h).symm⟩
  · exact .inr h

theorem execCmp_legal (ha : ra.toNat = a.val) (hb : rb.toNat = b.val) :
    execCmp ra rb s = .next ((s.setFl (compareFlags (s.readReg a) (s.readReg b))).advancePc 3) := by
  rw [execCmp, withRegs_of_names ha hb]; rfl

theorem execCmp_next (h : execCmp ra rb s = .next t) :
    (∃ a b : RegIndex, ra.toNat = a.val ∧ rb.toNat = b.val ∧
      t = (s.setFl (compareFlags (s.readReg a) (s.readReg b))).advancePc 3) ∨
    (7 < ra.toNat ∧ t = registerFault s ra) ∨
    (ra.toNat ≤ 7 ∧ 7 < rb.toNat ∧ t = registerFault s rb) := by
  rcases conclude_withRegs_next h with ⟨a, b, ha, hb, -⟩ | h
  · rw [execCmp_legal ha hb] at h
    exact .inl ⟨a, b, ha, hb, (Host.Outcome.next.inj h).symm⟩
  · exact .inr h

theorem execDiv_legal (ha : ra.toNat = a.val) (hb : rb.toNat = b.val) (h0 : s.readReg b ≠ 0#8) :
    execDiv ra rb s =
      .next ((s.writeReg a (aluDiv (s.readReg a) (s.readReg b))).advancePc 3) := by
  rw [execDiv, withRegs_of_names ha hb, if_neg h0]; rfl

theorem execDiv_zero (ha : ra.toNat = a.val) (hb : rb.toNat = b.val) (h0 : s.readReg b = 0#8) :
    execDiv ra rb s = .next (s.raise (.divideByZero Opcode.div)) := by
  rw [execDiv, withRegs_of_names ha hb, if_pos h0]; rfl

theorem execDiv_next (h : execDiv ra rb s = .next t) :
    (∃ a b : RegIndex, ra.toNat = a.val ∧ rb.toNat = b.val ∧ s.readReg b ≠ 0#8 ∧
      t = (s.writeReg a (aluDiv (s.readReg a) (s.readReg b))).advancePc 3) ∨
    (∃ a b : RegIndex, ra.toNat = a.val ∧ rb.toNat = b.val ∧ s.readReg b = 0#8 ∧
      t = s.raise (.divideByZero Opcode.div)) ∨
    (7 < ra.toNat ∧ t = registerFault s ra) ∨
    (ra.toNat ≤ 7 ∧ 7 < rb.toNat ∧ t = registerFault s rb) := by
  rcases conclude_withRegs_next h with ⟨a, b, ha, hb, -⟩ | h
  · by_cases h0 : s.readReg b = 0#8
    · rw [execDiv_zero ha hb h0] at h
      exact .inr (.inl ⟨a, b, ha, hb, h0, (Host.Outcome.next.inj h).symm⟩)
    · rw [execDiv_legal ha hb h0] at h
      exact .inl ⟨a, b, ha, hb, h0, (Host.Outcome.next.inj h).symm⟩
  · exact .inr (.inr h)

end Sys2Proof.Machine
end

