-- ==== Sys2Proof/Laws/PerInstr.lean ====
section
/-! SUPPORT. What holds of every instruction as syntax, one lemma per constructor of `Instr`. -/

/-- EncodeLength: an instruction's encoding has the length that its opcode's top two bits give (R71),
1 to 3 bytes (R13). -/
def Sys2Proof.Laws.EncodeLength.Statement (i : Sys2Proof.Instr) : Prop :=
  (Sys2Proof.encode i).length = Sys2Proof.instrLength i.opcode ∧
  1 ≤ (Sys2Proof.encode i).length ∧ (Sys2Proof.encode i).length ≤ 3

namespace Sys2Proof.Laws.EncodeLength

/-- The opcode byte and its operand bytes, as many as the opcode asks for. -/
theorem of_operands {i : Instr} (h : i.operands.length ≤ 2) : Statement i := by
  have hl : (encode i).length = i.operands.length + 1 := rfl
  refine ⟨?_, by omega, by omega⟩
  rw [hl, instrLength, operandCount_opcode]

theorem hlt : Statement .hlt := of_operands (by simp)
theorem ldi (ra imm : Byte) : Statement (.ldi ra imm) := of_operands (by simp)
theorem prn (ra : Byte) : Statement (.prn ra) := of_operands (by simp)
theorem push (ra : Byte) : Statement (.push ra) := of_operands (by simp)
theorem pop (ra : Byte) : Statement (.pop ra) := of_operands (by simp)
theorem call (ra : Byte) : Statement (.call ra) := of_operands (by simp)
theorem ret : Statement .ret := of_operands (by simp)
theorem jmp (ra : Byte) : Statement (.jmp ra) := of_operands (by simp)
theorem jeq (ra : Byte) : Statement (.jeq ra) := of_operands (by simp)
theorem jne (ra : Byte) : Statement (.jne ra) := of_operands (by simp)
theorem add (ra rb : Byte) : Statement (.add ra rb) := of_operands (by simp)
theorem sub (ra rb : Byte) : Statement (.sub ra rb) := of_operands (by simp)
theorem mul (ra rb : Byte) : Statement (.mul ra rb) := of_operands (by simp)
theorem div (ra rb : Byte) : Statement (.div ra rb) := of_operands (by simp)
theorem cmp (ra rb : Byte) : Statement (.cmp ra rb) := of_operands (by simp)

end Sys2Proof.Laws.EncodeLength
end

