-- ==== Sys2Proof/Laws/Step.lean ====
section
/-! SUPPORT. What a fetch reads, and what a step can do, said once. -/

namespace Sys2Proof.Machine

theorem read?_of_lt (m : Memory) {a : Nat} (h : a < 256) : m.read? a = some (m.read a) :=
  if_pos h

theorem read?_of_ge (m : Memory) {a : Nat} (h : 256 ≤ a) : m.read? a = none :=
  if_neg (by simp only [Config.memSize]; omega)

/-- Fetching bytes that all exist. -/
theorem fetchFrom_full (m : Memory) {addr n : Nat} (h : addr + n ≤ 256) :
    m.fetchFrom addr n = (List.range n).map fun k => m.read (addr + k) := by
  induction n generalizing addr with
  | zero => rfl
  | succ n ih =>
    rw [Memory.fetchFrom, read?_of_lt m (by omega), ih (by omega), List.range_succ_eq_map]
    simp [List.map_map, Function.comp_def, Nat.add_assoc, Nat.add_comm 1]

/-- A fetch stops at the top of memory. -/
theorem fetchFrom_length (m : Memory) (addr n : Nat) :
    (m.fetchFrom addr n).length = min n (256 - addr) := by
  induction n generalizing addr with
  | zero => simp [Memory.fetchFrom]
  | succ n ih =>
    rcases Nat.lt_or_ge addr 256 with h | h
    · rw [Memory.fetchFrom, read?_of_lt m h, List.length_cons, ih]; omega
    · rw [Memory.fetchFrom, read?_of_ge m h]; simp; omega

/-- The fetch of a state whose PC is an address of MEM. -/
theorem fetch_of_lt {s : State} (h : s.pc.toNat < 256) :
    s.fetch = s.mem.read s.pc.toNat ::
      s.mem.fetchFrom (s.pc.toNat + 1) (operandsFetched (s.mem.read s.pc.toNat)) := by
  rw [State.fetch, read?_of_lt _ h]

theorem fetch_of_ge {s : State} (h : 256 ≤ s.pc.toNat) : s.fetch = [] := by
  rw [State.fetch, read?_of_ge _ h]

/-- What a decoded fetch says of PC and memory: the opcode at PC, the operand bytes after it, all of
them at addresses of MEM, and nothing after them. -/
theorem fetch_decoded {s : State} {i : Instr} {rest : List Byte}
    (h : decode s.fetch = .ok (i, rest)) :
    rest = [] ∧ s.pc.toNat + i.operands.length < 256 ∧ s.mem.read s.pc.toNat = i.opcode ∧
    i.operands = (List.range i.operands.length).map fun k => s.mem.read (s.pc.toNat + 1 + k) := by
  obtain ⟨tail, hf, hlen, htake, hdrop⟩ := decode_ok h
  rcases Nat.lt_or_ge s.pc.toNat 256 with hpc | hpc
  · rw [fetch_of_lt hpc] at hf
    obtain ⟨hop, htail⟩ := List.cons.inj hf
    rw [hop] at htail
    have hlen' := fetchFrom_length s.mem (s.pc.toNat + 1) (operandsFetched i.opcode)
    rw [htail] at hlen'
    have hfit : s.pc.toNat + 1 + operandsFetched i.opcode ≤ 256 := by omega
    have hall : tail.length = operandsFetched i.opcode := by omega
    rw [fetchFrom_full _ hfit] at htail
    rw [List.take_of_length_le (by omega)] at htake
    rw [operandsFetched_opcode] at hfit htail hall
    refine ⟨?_, by omega, hop, ?_⟩
    · rw [hdrop, List.drop_eq_nil_of_le]
      rw [operandsFetched_opcode]; omega
    · rw [htail]; exact htake.symm
  · rw [fetch_of_ge hpc] at hf; cases hf

/-- Everything a step with a next state can do. -/
theorem step_cases {s t : State} (h : step s = .next t) :
    s.running = true ∧
    ((∃ i, decode s.fetch = .ok (i, []) ∧ exec i s = .next t) ∨
     (∃ r, decode s.fetch = .error r ∧ t = s.raise (rejectCause s.pc r))) := by
  unfold step at h
  split at h
  · next hr =>
    refine ⟨hr, ?_⟩
    split at h
    · next i rest hd =>
      obtain ⟨rfl, -⟩ := fetch_decoded hd
      exact .inl ⟨i, hd, h⟩
    · next r hd => exact .inr ⟨r, hd, by cases h; rfl⟩
  · cases h

/-- What a rejected fetch or opcode says of PC and memory (R104, R105, R112, R114). -/
theorem fetch_rejected {s : State} {r : Reject} (h : decode s.fetch = .error r) :
    (256 ≤ s.pc.toNat ∧ r = .noOpcode) ∨
    (s.pc.toNat < 256 ∧ 256 ≤ s.pc.toNat + operandsFetched (s.mem.read s.pc.toNat) ∧
      r = .missingOperand (256 - s.pc.toNat)) ∨
    (s.pc.toNat + operandsFetched (s.mem.read s.pc.toNat) < 256 ∧
      (∀ i : Instr, i.opcode ≠ s.mem.read s.pc.toNat) ∧
      r = if aluFlag (s.mem.read s.pc.toNat) then .unsupportedAluOperation (s.mem.read s.pc.toNat)
          else .unknownInstruction (s.mem.read s.pc.toNat)) := by
  rcases Nat.lt_or_ge s.pc.toNat 256 with hpc | hpc
  · rw [fetch_of_lt hpc] at h
    generalize hop : s.mem.read s.pc.toNat = op at h ⊢
    have hlen := fetchFrom_length s.mem (s.pc.toNat + 1) (operandsFetched op)
    rcases Nat.lt_or_ge (s.pc.toNat + operandsFetched op) 256 with hfit | hfit
    · rw [decode_of_enough (by omega), List.take_of_length_le (by omega)] at h
      refine .inr (.inr ⟨hfit, ?_, ?_⟩)
      · rintro i rfl
        have hl : (s.mem.fetchFrom (s.pc.toNat + 1) (operandsFetched i.opcode)).length =
            i.operands.length := by
          rw [hlen, ← operandsFetched_opcode]
          omega
        obtain ⟨j, hj⟩ := decodeOpcode_total i hl
        rw [hj] at h
        cases h
      · rcases decodeOpcode_cases op (s.mem.fetchFrom (s.pc.toNat + 1) (operandsFetched op)) with
          ⟨i, hi, -⟩ | he
        · rw [hi] at h; cases h
        · rw [he] at h; exact (Except.error.inj h).symm
    · rw [decode_of_short (by omega)] at h
      refine .inr (.inl ⟨hpc, hfit, ?_⟩)
      rw [← Except.error.inj h, hlen]
      congr 1
      omega
  · rw [fetch_of_ge hpc] at h
    exact .inl ⟨hpc, (Except.error.inj h).symm⟩

end Sys2Proof.Machine
end

