-- ==== Sys2Proof/Laws/Safety.lean ====
section
/-! SUPPORT. The terms of the statements (Safety.lean) against the decoder and the step. -/

namespace Sys2Proof.Machine

/-! ## Conditional causes -/

theorem causeIf_pos {p : Prop} [Decidable p] (c : Cause) (h : p) : causeIf p c = [c] := if_pos h

theorem causeIf_neg {p : Prop} [Decidable p] (c : Cause) (h : ¬p) : causeIf p c = [] := if_neg h

theorem causeIf_eq_nil {p : Prop} [Decidable p] {c : Cause} : causeIf p c = [] ↔ ¬p := by
  by_cases h : p
  · rw [causeIf_pos c h]; simpa using h
  · rw [causeIf_neg c h]; simpa using h

theorem causeIf_eq_cons {p : Prop} [Decidable p] {c d : Cause} {l : List Cause} :
    causeIf p c = d :: l ↔ p ∧ d = c ∧ l = [] := by
  by_cases h : p
  · rw [causeIf_pos c h]; simp [h, eq_comm]
  · rw [causeIf_neg c h]; simp [h]

theorem registerCauses_eq_nil {i : Instr} : registerCauses i = [] ↔ i.wellFormed = true := by
  simp [registerCauses, Instr.wellFormed, namesRegister]

/-! ## The opcode map -/

/-- A defined opcode with an instruction's own operand bytes is that instruction. -/
theorem opcodeInstr_of_operands {i : Instr} {a b : Byte}
    (h : i.operands = [a, b].take i.operands.length) : opcodeInstr i.opcode a b = some i := by
  cases i <;> simp [Instr.operands] at h <;> (try obtain ⟨rfl, rfl⟩ := h) <;>
    simp only [Instr.opcode] <;> rfl

/-- What the map holds is the instruction with that opcode and those operand bytes. -/
theorem opcodeInstr_some {op a b : Byte} {i : Instr} (h : opcodeInstr op a b = some i) :
    op = i.opcode ∧ i.operands = [a, b].take i.operands.length := by
  unfold opcodeInstr at h
  obtain ⟨row, hf, rfl⟩ := Option.map_eq_some_iff.1 h
  have hm := List.mem_of_find?_eq_some hf
  obtain rfl : row.1 = op := by simpa using List.find?_some hf
  simp only [List.mem_cons, List.not_mem_nil, or_false] at hm
  rcases hm with rfl | rfl | rfl | rfl | rfl | rfl | rfl | rfl | rfl | rfl | rfl | rfl | rfl | rfl | rfl
    <;> exact ⟨rfl, rfl⟩

/-- The instruction a fetch decodes to is the map's entry for the three bytes at PC. -/
theorem opcodeInstr_of_decoded {s : State} {i : Instr} {rest : List Byte}
    (h : decode s.fetch = .ok (i, rest)) :
    opcodeInstr (s.mem.read s.pc.toNat) (s.mem.read (s.pc.toNat + 1))
      (s.mem.read (s.pc.toNat + 2)) = some i := by
  obtain ⟨-, -, hop, hops⟩ := fetch_decoded h
  rw [hop]
  apply opcodeInstr_of_operands
  have h2 : i.operands.length ≤ 2 := by
    rw [← operandsFetched_opcode, operandsFetched]; exact Nat.min_le_right _ _
  rw [hops]
  generalize i.operands.length = n at h2
  match n, h2 with
  | 0, _ => rfl
  | 1, _ => rfl
  | 2, _ => rfl

/-! ## Jumps not taken -/

@[simp] theorem jumpNotTaken_jeq (s : State) (ra : Byte) :
    JumpNotTaken s (.jeq ra) ↔ s.fl.toNat % 2 = 0 := by simp [JumpNotTaken]

@[simp] theorem jumpNotTaken_jne (s : State) (ra : Byte) :
    JumpNotTaken s (.jne ra) ↔ s.fl.toNat % 2 = 1 := by simp [JumpNotTaken]

@[simp] theorem not_jumpNotTaken_call (s : State) (ra : Byte) : ¬ JumpNotTaken s (.call ra) := by
  simp [JumpNotTaken]

@[simp] theorem not_jumpNotTaken_ret (s : State) : ¬ JumpNotTaken s .ret := by simp [JumpNotTaken]

@[simp] theorem not_jumpNotTaken_jmp (s : State) (ra : Byte) : ¬ JumpNotTaken s (.jmp ra) := by
  simp [JumpNotTaken]

/-! ## PC and the stop record -/

/-- PC's advance is exact while it stays within 9 bits. -/
theorem advance_toNat {p : PcWord} {n : Nat} (h : p.toNat + n ≤ 256) :
    (p + BitVec.ofNat 9 n).toNat = p.toNat + n := by
  rw [BitVec.toNat_add, BitVec.toNat_ofNat]; omega

/-- While Running = 1 the stop status holds its reset value. -/
theorem stopRecord_running {s : State} (h : StopRecord s) (hr : s.running = true) :
    s.stopCause = 0#3 ∧ s.stopInfo = 0#12 := by
  unfold StopRecord at h
  simp only [hr] at h
  split at h <;> first | exact ⟨BitVec.eq_of_toNat_eq (by assumption), h.2⟩ | simp at h

/-- A running state with the stop status at its reset value has a legal record. -/
theorem stopRecord_of_running {s : State} (hr : s.running = true) (hc : s.stopCause = 0#3)
    (hi : s.stopInfo = 0#12) : StopRecord s := by
  unfold StopRecord; rw [hc]; exact ⟨hr, hi⟩

/-- Every instruction halts, keeps the stop status, or raises. -/
theorem exec_status {i : Instr} {s t : State} (h : exec i s = .next t) :
    i = .hlt ∨ SameStatus s t ∨ ∃ c, t = s.raise c := by
  cases i <;> first
    | exact .inl rfl
    | (cases h; exact .inr (.inl ⟨rfl, rfl, rfl⟩))
    | skip
  case ldi => rcases execLdi_next h with ⟨_, _, rfl⟩ | ⟨_, rfl⟩ <;> first
    | exact .inr (.inr ⟨_, rfl⟩) | exact .inr (.inl ⟨rfl, rfl, rfl⟩)
  case prn => rcases execPrn_next h with ⟨_, _, rfl⟩ | ⟨_, rfl⟩ <;> first
    | exact .inr (.inr ⟨_, rfl⟩) | exact .inr (.inl ⟨rfl, rfl, rfl⟩)
  case push => rcases execPush_next h with ⟨_, _, rfl⟩ | ⟨_, rfl⟩ <;> first
    | exact .inr (.inr ⟨_, rfl⟩) | exact .inr (.inl ⟨rfl, rfl, rfl⟩)
  case pop => rcases execPop_next h with ⟨_, _, rfl⟩ | ⟨_, rfl⟩ <;> first
    | exact .inr (.inr ⟨_, rfl⟩) | exact .inr (.inl ⟨rfl, rfl, rfl⟩)
  case jmp => rcases execJmp_next h with ⟨_, _, rfl⟩ | ⟨_, rfl⟩ <;> first
    | exact .inr (.inr ⟨_, rfl⟩) | exact .inr (.inl ⟨rfl, rfl, rfl⟩)
  case jeq => rcases execJeq_next h with ⟨_, _, rfl⟩ | ⟨_, rfl⟩ <;> first
    | exact .inr (.inr ⟨_, rfl⟩) | exact .inr (.inl ⟨rfl, rfl, rfl⟩)
  case jne => rcases execJne_next h with ⟨_, _, rfl⟩ | ⟨_, rfl⟩ <;> first
    | exact .inr (.inr ⟨_, rfl⟩) | exact .inr (.inl ⟨rfl, rfl, rfl⟩)
  case call => rcases execCall_next h with ⟨_, _, _, rfl⟩ | ⟨_, _, _, rfl⟩ | ⟨_, rfl⟩ <;> first
    | exact .inr (.inr ⟨_, rfl⟩) | exact .inr (.inl ⟨rfl, rfl, rfl⟩)
  case add => rcases execAdd_next h with ⟨_, _, _, _, rfl⟩ | ⟨_, rfl⟩ | ⟨_, _, rfl⟩ <;> first
    | exact .inr (.inr ⟨_, rfl⟩) | exact .inr (.inl ⟨rfl, rfl, rfl⟩)
  case sub => rcases execSub_next h with ⟨_, _, _, _, rfl⟩ | ⟨_, rfl⟩ | ⟨_, _, rfl⟩ <;> first
    | exact .inr (.inr ⟨_, rfl⟩) | exact .inr (.inl ⟨rfl, rfl, rfl⟩)
  case mul => rcases execMul_next h with ⟨_, _, _, _, rfl⟩ | ⟨_, rfl⟩ | ⟨_, _, rfl⟩ <;> first
    | exact .inr (.inr ⟨_, rfl⟩) | exact .inr (.inl ⟨rfl, rfl, rfl⟩)
  case cmp => rcases execCmp_next h with ⟨_, _, _, _, rfl⟩ | ⟨_, rfl⟩ | ⟨_, _, rfl⟩ <;> first
    | exact .inr (.inr ⟨_, rfl⟩) | exact .inr (.inl ⟨rfl, rfl, rfl⟩)
  case div =>
    rcases execDiv_next h with ⟨_, _, _, _, _, rfl⟩ | ⟨_, _, _, _, _, rfl⟩ | ⟨_, rfl⟩ | ⟨_, _, rfl⟩ <;>
      first | exact .inr (.inr ⟨_, rfl⟩) | exact .inr (.inl ⟨rfl, rfl, rfl⟩)

end Sys2Proof.Machine
end

