-- ==== Sys2Proof/Tests/Slice0.lean ====
section
/-!
SUPPORT. The model's own tests. Expected values are those of 95_test_vectors.md and of the rules named;
words are written out bit by bit from the encodings of R130 to R134, R160 to R165 and R190 to R194.
The second half holds the witnesses: states and operands that meet the hypotheses of the statements.
-/

namespace Sys2Proof.Tests

open Sys2Proof.Machine

/-- The start state with an image. -/
def start (img : List Byte) : State := { State.reset with mem := Memory.ofImage 0 img }

/-- The start state with bytes at an address, and PC there. -/
def placed (pc : Nat) (bytes : List Byte) : State :=
  { State.reset with pc := BitVec.ofNat 9 pc, mem := Memory.ofImage pc bytes }

/-- The next state of an outcome, if it is one. -/
def nextOf : StepOutcome → Option State
  | .next t => some t
  | _ => none

/-- Some fields of the state after one step. -/
def after {α : Type} (s : State) (f : State → α) : Option α := (nextOf (step s)).map f

/-- The stop status and PC. -/
def stopOf (s : State) : Bool × BitVec 3 × BitVec 3 × BitVec 9 × PcWord :=
  (s.running, s.stopCause, s.stopKind, s.stopValue, s.pc)

/-! ## WellFormed: each check refuses an ill-formed term (R24, R79) -/

theorem test_wellFormed_accepts : (Instr.add 7#8 0#8).wellFormed = true := by decide
theorem test_wellFormed_refuses_ra : (Instr.ldi 8#8 0#8).wellFormed = false := by decide
theorem test_wellFormed_refuses_rb : (Instr.cmp 7#8 255#8).wellFormed = false := by decide
theorem test_wellFormed_immediate_is_free : (Instr.ldi 0#8 255#8).wellFormed = true := by decide
theorem test_badRegister_is_ra_first : (Instr.add 9#8 10#8).badRegister = some 9#8 := by decide

/-! ## Decoding: one word for every constructor -/

theorem test_decode_hlt : decode [0b00000001#8] = .ok (.hlt, []) := by rfl
theorem test_decode_ldi :
    decode [0b10000010#8, 0b00000111#8, 0b10000001#8] = .ok (.ldi 7#8 129#8, []) := by rfl
theorem test_decode_prn : decode [0b01000111#8, 0b11001000#8] = .ok (.prn 200#8, []) := by rfl
theorem test_decode_push : decode [0b01000101#8, 0b00000001#8] = .ok (.push 1#8, []) := by rfl
theorem test_decode_pop : decode [0b01000110#8, 0b00000010#8] = .ok (.pop 2#8, []) := by rfl
theorem test_decode_call : decode [0b01010000#8, 0b00000011#8] = .ok (.call 3#8, []) := by rfl
theorem test_decode_ret : decode [0b00010001#8, 0b11111111#8] = .ok (.ret, [255#8]) := by rfl
theorem test_decode_jmp : decode [0b01010100#8, 0b00000100#8] = .ok (.jmp 4#8, []) := by rfl
theorem test_decode_jeq : decode [0b01010101#8, 0b00000101#8] = .ok (.jeq 5#8, []) := by rfl
theorem test_decode_jne : decode [0b01010110#8, 0b00000110#8] = .ok (.jne 6#8, []) := by rfl
theorem test_decode_add :
    decode [0b10100000#8, 0b00000001#8, 0b00000010#8] = .ok (.add 1#8 2#8, []) := by rfl
theorem test_decode_sub :
    decode [0b10100001#8, 0b00000011#8, 0b00000100#8] = .ok (.sub 3#8 4#8, []) := by rfl
theorem test_decode_mul :
    decode [0b10100010#8, 0b00000101#8, 0b00000110#8] = .ok (.mul 5#8 6#8, []) := by rfl
theorem test_decode_div :
    decode [0b10100011#8, 0b00000111#8, 0b00000000#8] = .ok (.div 7#8 0#8, []) := by rfl
theorem test_decode_cmp :
    decode [0b10100111#8, 0b00001001#8, 0b00001010#8] = .ok (.cmp 9#8 10#8, []) := by rfl

/-- The rejections, and the illegal rows of section 2.1: 0x10, 0xB0, 0xC0 and 0xFF. -/
theorem test_decode_rejects :
    decode [] = .error .noOpcode ∧
    decode [0b01000111#8] = .error (.missingOperand 1) ∧
    decode [0b10100000#8, 0#8] = .error (.missingOperand 2) ∧
    decode [0b00010000#8] = .error (.unknownInstruction 0x10#8) ∧
    decode [0b10110000#8, 0#8, 0#8] = .error (.unsupportedAluOperation 0xB0#8) ∧
    decode [0b11000000#8, 0#8, 0#8] = .error (.unknownInstruction 0xC0#8) ∧
    decode [0b11111111#8, 0#8, 0#8] = .error (.unsupportedAluOperation 0xFF#8) :=
  ⟨rfl, rfl, rfl, rfl, rfl, rfl, rfl⟩

/-- A table word, first byte in the low bits: 0x82 as the row has it, and LDI R1, 2 in 24 bits. -/
theorem test_decodeTableWord :
    decodeTableWord 8 0x82 = some (.ldi 0#8 0#8) ∧ decodeTableWord 24 0x020182 = some (.ldi 1#8 2#8) ∧
    decodeTableWord 8 0xC0 = none := by decide

/-- LDI R1, 2 placed by `withFetchWord` is what the next step of reset runs. -/
theorem test_withFetchWord :
    after (State.reset.withFetchWord 24 0x020182) (fun t => (t.readReg 1, t.pc)) = some (2#8, 3#9) := by
  decide

/-- The listing of E1 (R81). -/
theorem test_listing :
    (Instr.ldi 1#8 9#8).listing = "LDI R1, 9" ∧ (Instr.add 0#8 1#8).listing = "ADD R0, R1" := by decide

/-! ## Memory -/

/-- Writing 0 removes the cell, and a write in front keeps the order. -/
theorem test_memory_canonical :
    Memory.write [(3, 5#8), (9, 1#8)] 3 0#8 = [(9, 1#8)] ∧
    Memory.write [(9, 1#8)] 3 5#8 = [(3, 5#8), (9, 1#8)] ∧
    Memory.write [(3, 5#8)] 3 6#8 = [(3, 6#8)] := by decide

/-! ## One step (95_test_vectors.md sections 2.2 to 2.5) -/

/-- The table of R139, row by row: R[a], R[b], ADD, SUB, MUL, CMP. -/
theorem test_alu_boundary_table :
    ([(0, 0, 0, 0, 0, 1), (0, 1, 1, 255, 0, 4), (1, 0, 1, 1, 0, 2), (255, 1, 0, 254, 255, 2),
      (1, 255, 0, 2, 255, 4), (255, 255, 254, 0, 1, 1), (128, 128, 0, 0, 0, 1), (128, 2, 130, 126, 0, 2),
      (17, 5, 22, 12, 85, 2)] : List (Byte × Byte × Byte × Byte × Byte × Byte)).all
      (fun (x, y, sum, diff, prod, flags) => aluAdd x y == sum && aluSub x y == diff &&
        aluMul x y == prod && compareFlags x y == flags) = true := by decide

/-- The DIV column of R139 where R[b] is not 0. -/
theorem test_alu_quotients :
    aluDiv 0#8 1#8 = 0#8 ∧ aluDiv 255#8 1#8 = 255#8 ∧ aluDiv 1#8 255#8 = 0#8 ∧ aluDiv 128#8 2#8 = 64#8 ∧
    aluDiv 17#8 5#8 = 3#8 := by decide

theorem test_add_wraps :
    after ((start [0xA0#8, 0#8, 1#8]).writeReg 0 200#8 |>.writeReg 1 100#8)
      (fun t => (t.readReg 0, t.readReg 1, t.pc)) = some (44#8, 100#8, 3#9) := by decide

theorem test_add_checks_ra_first :
    after (start [0xA0#8, 9#8, 10#8]) stopOf = some (false, 4#3, 3#3, 9#9, 0#9) := by decide

theorem test_sub_borrows :
    after ((start [0xA1#8, 0#8, 1#8]).writeReg 0 3#8 |>.writeReg 1 5#8) (fun t => (t.readReg 0, t.pc)) =
      some (254#8, 3#9) := by decide

theorem test_mul_low_byte :
    after ((start [0xA2#8, 0#8, 1#8]).writeReg 0 255#8 |>.writeReg 1 255#8)
      (fun t => (t.readReg 0, t.readReg 1)) = some (1#8, 255#8) := by decide

theorem test_div_quotient :
    after ((start [0xA3#8, 0#8, 1#8]).writeReg 0 100#8 |>.writeReg 1 7#8) (fun t => (t.readReg 0, t.pc)) =
      some (14#8, 3#9) := by decide

theorem test_div_by_zero :
    after ((start [0xA3#8, 0#8, 1#8]).writeReg 0 10#8) (fun t => (t.readReg 0, stopOf t)) =
      some (10#8, false, 5#3, 0#3, 0xA3#9, 0#9) := by decide

theorem test_cmp_is_unsigned :
    after ({ start [0xA7#8, 0#8, 1#8] with fl := 2#8 }.writeReg 1 255#8) (fun t => (t.fl, t.pc)) =
      some (4#8, 3#9) := by decide

theorem test_cmp_bad_index_keeps_flags :
    after { start [0xA7#8, 8#8, 0#8] with fl := 1#8 } (fun t => (t.fl, stopOf t)) =
      some (1#8, false, 4#3, 3#3, 8#9, 0#9) := by decide

theorem test_hlt_at_top :
    after (placed 255 [0x01#8]) stopOf = some (false, 1#3, 0#3, 0#9, 256#9) := by decide

theorem test_ldi_writes_sp :
    after (start [0x82#8, 7#8, 9#8]) (fun t => (t.sp, t.readReg 0, t.pc)) = some (9#8, 0#8, 3#9) := by decide

theorem test_prn_emits_sp :
    after { start [0x47#8, 7#8] with out := [5#8] } (fun t => (t.out, t.pc)) =
      some ([5#8, 244#8], 2#9) := by decide

theorem test_prn_bad_index_emits_nothing :
    after (start [0x47#8, 0xC8#8]) (fun t => (t.out, stopOf t)) =
      some ([], false, 4#3, 3#3, 200#9, 0#9) := by decide

theorem test_push_wraps :
    after ((start [0x45#8, 1#8]).writeReg 7 0#8 |>.writeReg 1 0x77#8)
      (fun t => (t.sp, t.mem.read 255, t.pc)) = some (255#8, 0x77#8, 2#9) := by decide

theorem test_push_sp_stores_decremented :
    after (start [0x45#8, 7#8]) (fun t => (t.sp, t.mem.read 0xF3)) = some (0xF3#8, 0xF3#8) := by decide

theorem test_pop_wraps_and_keeps_the_cell :
    after ({ start [] with mem := Memory.ofImage 0 [0x46#8, 1#8] ++ [(255, 42#8)] }.writeReg 7 255#8)
      (fun t => (t.readReg 1, t.sp, t.mem.read 255, t.pc)) = some (42#8, 0#8, 42#8, 2#9) := by decide

theorem test_pop_sp :
    after ({ start [] with mem := Memory.ofImage 0 [0x46#8, 7#8] ++ [(0xF3, 48#8)] }.writeReg 7 0xF3#8)
      (fun t => t.sp) = some 49#8 := by decide

theorem test_call :
    after ((placed 6 [0x50#8, 1#8]).writeReg 1 12#8) (fun t => (t.sp, t.mem.read 0xF3, t.pc)) =
      some (0xF3#8, 8#8, 12#9) := by decide

theorem test_call_return_address_above_memory :
    after ((placed 254 [0x50#8, 0#8]).writeReg 0 254#8) (fun t => (t.sp, stopOf t)) =
      some (0xF4#8, false, 4#3, 4#3, 256#9, 254#9) := by decide

theorem test_ret :
    after ({ placed 22 [] with mem := [(22, 0x11#8), (0xF3, 8#8)] }.writeReg 7 0xF3#8)
      (fun t => (t.sp, t.pc)) = some (0xF4#8, 8#9) := by decide

theorem test_ret_on_empty_stack :
    after (start [0x11#8]) (fun t => (t.sp, t.pc)) = some (0xF5#8, 0#9) := by decide

theorem test_jmp :
    after ((placed 20 [0x54#8, 3#8]).writeReg 3 25#8) (fun t => t.pc) = some 25#9 := by decide

theorem test_jeq_taken :
    after ({ placed 15 [0x55#8, 2#8] with fl := 1#8 }.writeReg 2 22#8) (fun t => t.pc) = some 22#9 := by decide

theorem test_jeq_checks_ra_though_not_taken :
    after (start [0x55#8, 8#8]) stopOf = some (false, 4#3, 3#3, 8#9, 0#9) := by decide

theorem test_jne_taken_on_greater :
    after ({ placed 24 [0x56#8, 4#8] with fl := 2#8 }.writeReg 4 15#8) (fun t => t.pc) = some 15#9 := by decide

theorem test_jne_not_taken_on_equal :
    after ({ placed 24 [0x56#8, 4#8] with fl := 1#8 }.writeReg 4 15#8) (fun t => t.pc) = some 26#9 := by decide

theorem test_illegal_opcodes_stop :
    after (start [0x20#8]) stopOf = some (false, 3#3, 0#3, 0x20#9, 0#9) ∧
    after (start [0x10#8, 0x01#8]) stopOf = some (false, 2#3, 0#3, 0x10#9, 0#9) := by decide

/-- An operand fetch above 255 outranks the illegal opcode 0xFF (R228). -/
theorem test_operand_fetch_outranks_opcode :
    after (placed 255 [0xFF#8]) stopOf = some (false, 4#3, 2#3, 256#9, 255#9) := by decide

theorem test_fetch_above_memory :
    after { State.reset with pc := 256#9 } stopOf = some (false, 4#3, 1#3, 256#9, 256#9) := by decide

/-! ## The host side -/

/-- The first two lines of E1's text, a comment line and a blank one. -/
theorem test_loader_text :
    parseProgram "# E1\n10000010  # LDI R0, 8\n\n  00000000".toList = .ok [0x82#8, 0#8] := by rfl

theorem test_loader_short_line :
    parseProgram "0000000".toList = .error .programLoadParseError := by rfl

/-- The stack window of R237 after PUSH R0 with R0 = 42: its last byte, address 243. -/
theorem test_stack_window :
    after ((start [0x45#8, 0#8]).writeReg 0 42#8) (fun t => t.stackWindow) =
      some [0#8, 0#8, 0#8, 0#8, 0#8, 0#8, 0#8, 42#8] := by decide

/-! ## Witnesses: the hypotheses of the statements can be met, at the boundaries of each clause -/

theorem witness_ResetStateValues : (0 : RegIndex) ≠ 7 ∧ (6 : RegIndex) ≠ 7 := by decide

theorem witness_CreatePlacesImageInStartState :
    (List.replicate 256 1#8).length ≤ 256 ∧ 255 < (List.replicate 256 1#8).length ∧
    ([] : List Byte).length ≤ 255 ∧ 256 < (List.replicate 257 1#8).length := by
  simp only [List.length_replicate, List.length_nil]; decide

theorem witness_DecodeFollowsOpcodeMap :
    min (fieldN 0xFF#8) 2 ≤ [1#8, 2#8].length ∧ min (fieldN 0x01#8) 2 ≤ ([] : List Byte).length := by decide

theorem witness_EncodeDecodeRoundTrip : decode [0x47#8, 255#8, 9#8] = .ok (.prn 255#8, [9#8]) := by rfl

theorem witness_StepRunsDecodedInstruction :
    (start [0x11#8]).running = true ∧ decode (start [0x11#8]).fetch = .ok (.ret, []) := ⟨rfl, rfl⟩

/-- The last instruction of memory: HLT at 255, and ADD at 253. -/
theorem witness_StepRunsBytesInMemory :
    ((placed 255 [0x01#8]).running = true ∧ (placed 255 [0x01#8]).pc.toNat + (encode .hlt).length ≤ 256 ∧
      ∀ k : Fin 1, (placed 255 [0x01#8]).mem.read (255 + k.val) = (encode .hlt)[k]) ∧
    ((placed 253 [0xA0#8, 1#8, 9#8]).pc.toNat + (encode (.add 1#8 9#8)).length ≤ 256 ∧
      ∀ k : Fin 3, (placed 253 [0xA0#8, 1#8, 9#8]).mem.read (253 + k.val) = (encode (.add 1#8 9#8))[k]) := by
  decide

theorem witness_StepExistsExactlyWhileRunning :
    State.reset.running = true ∧ { State.reset with running := false }.running = false := by decide

theorem witness_FetchAboveMemoryRaises :
    { State.reset with pc := 256#9 }.running = true ∧ { State.reset with pc := 256#9 }.pc.toNat > 255 := by
  decide

/-- One operand byte at 256, and two with the second at 256. -/
theorem witness_OperandFetchAboveMemoryRaises :
    ((placed 255 [0x47#8]).running = true ∧ (placed 255 [0x47#8]).mem.read 255 = 0x47#8 ∧
      (placed 255 [0x47#8]).pc.toNat = 255 ∧ (0x47#8).toNat / 64 ≥ 1) ∧
    ((placed 254 [0xA0#8]).running = true ∧ (placed 254 [0xA0#8]).mem.read 254 = 0xA0#8 ∧
      (placed 254 [0xA0#8]).pc.toNat = 254 ∧ (0xA0#8).toNat / 64 ≥ 2) := by decide

/-- An opcode of each kind as the last byte, and 0xFF with its two operand bytes at the top. -/
theorem witness_IllegalOpcodeRaises :
    ((placed 255 [0x20#8]).running = true ∧ (placed 255 [0x20#8]).mem.read 255 = 0x20#8 ∧
      255 + min ((0x20#8).toNat / 64) 2 ≤ 255 ∧ (0x20#8).toNat / 32 % 2 = 1 ∧
      0x20#8 ∉ [0xA0#8, 0xA1#8, 0xA2#8, 0xA3#8, 0xA7#8]) ∧
    ((placed 253 [0xFF#8]).mem.read 253 = 0xFF#8 ∧ 253 + min ((0xFF#8).toNat / 64) 2 ≤ 255 ∧
      (0xFF#8).toNat / 32 % 2 = 1) ∧
    ((placed 253 [0xC0#8]).mem.read 253 = 0xC0#8 ∧ 253 + min ((0xC0#8).toNat / 64) 2 ≤ 255 ∧
      (0xC0#8).toNat / 32 % 2 = 0 ∧
      0xC0#8 ∉ [0x01#8, 0x82#8, 0x47#8, 0x45#8, 0x46#8, 0x50#8, 0x11#8, 0x54#8, 0x55#8, 0x56#8]) := by
  decide

/-- A state where two causes apply, ra before rb; and one where none does. -/
theorem witness_StepRaisesFirstApplicableCause :
    (start [0xA0#8, 8#8, 255#8]).running = true ∧
    applicableCauses (start [0xA0#8, 8#8, 255#8]) =
      [.outOfRangeAccess .registerIndex 8#9, .outOfRangeAccess .registerIndex 255#9] ∧
    (start [0x01#8]).running = true ∧ applicableCauses (start [0x01#8]) = [] := by decide

theorem witness_RegisterAboveSevenRaises :
    (Instr.cmp 7#8 8#8).regOperands.find? (fun ra => decide (7 < ra.toNat)) = some 8#8 ∧
    (Instr.jeq 255#8).regOperands.find? (fun ra => decide (7 < ra.toNat)) = some 255#8 ∧
    (start [0xA7#8]).running = true ∧
    (Instr.cmp 7#8 0#8).regOperands.find? (fun ra => decide (7 < ra.toNat)) = none ∧
    (nextOf (exec (.cmp 7#8 0#8) (start [0xA7#8]))).isSome = true := by decide

/-- CALL at 253, DIV by 1, and HLT. -/
theorem witness_LegalInstructionCompletes :
    ((Instr.call 7#8).wellFormed = true ∧ (placed 253 []).pc.toNat ≤ 253) ∧
    ((Instr.div 0#8 1#8).wellFormed = true ∧ (State.reset.writeReg 1 1#8).readReg 1 ≠ 0#8) ∧
    Instr.hlt.wellFormed = true := by decide

/-- Register operands at both ends of the range, the same register twice, and bytes outside it; this
serves AddResult, SubResult, MulResult, CmpResult and every statement with one register operand. -/
theorem witness_register_operands :
    ((0#8).toNat = (0 : RegIndex).val ∧ (7#8).toNat = (7 : RegIndex).val) ∧
    (7 < (8#8).toNat ∧ 7 < (255#8).toNat) ∧ ((7#8).toNat ≤ 7 ∧ 7 < (8#8).toNat) := by decide

theorem witness_AddResult : (7#8).toNat = (7 : RegIndex).val ∧ (0#8).toNat = (0 : RegIndex).val := by decide
theorem witness_SubResult : (7#8).toNat = (7 : RegIndex).val ∧ (7#8).toNat = (7 : RegIndex).val := by decide
theorem witness_MulResult : (0#8).toNat = (0 : RegIndex).val ∧ (7#8).toNat = (7 : RegIndex).val := by decide

/-- A divisor of 1 and a divisor of 0. -/
theorem witness_DivResult :
    (7#8).toNat = (7 : RegIndex).val ∧ (0#8).toNat = (0 : RegIndex).val ∧
    (State.reset.writeReg 0 1#8).readReg 0 ≠ 0#8 ∧ State.reset.readReg 0 = 0#8 := by decide

theorem witness_CmpResult :
    (6#8).toNat = (6 : RegIndex).val ∧ (7#8).toNat = (7 : RegIndex).val ∧
    (State.reset.readReg 6).toNat < (State.reset.readReg 7).toNat := by decide

theorem witness_LdiResult : (7#8).toNat = (7 : RegIndex).val ∧ 7 < (8#8).toNat := by decide
theorem witness_PrnResult : (0#8).toNat = (0 : RegIndex).val ∧ 7 < (255#8).toNat := by decide

/-- PUSH R7 and PUSH R0, SP = 0 among the states. -/
theorem witness_PushResult :
    (7#8).toNat = (7 : RegIndex).val ∧ (0#8).toNat = (0 : RegIndex).val ∧
    (State.reset.writeReg 7 0#8).mem.wf ∧ (start [0x45#8, 7#8]).mem.wf := by decide

theorem witness_PopResult :
    (7#8).toNat = (7 : RegIndex).val ∧ (0#8).toNat = (0 : RegIndex).val ∧ (0 : RegIndex) ≠ 7 := by decide

theorem witness_PushPopRoundTrip :
    (7#8).toNat = (7 : RegIndex).val ∧ (2#8).toNat = (2 : RegIndex).val ∧ State.reset.mem.wf := by decide

theorem witness_LdiThenPrnEmitsImmediate : (7#8).toNat ≤ 7 := by decide

/-- CALL at 253, whose return address is 255, and at 254. -/
theorem witness_CallResult :
    (7#8).toNat = (7 : RegIndex).val ∧ (0#8).toNat = (0 : RegIndex).val ∧
    (placed 253 [0x50#8, 7#8]).pc.toNat ≤ 253 ∧ (placed 253 [0x50#8, 7#8]).mem.wf ∧
    (placed 254 [0x50#8, 0#8]).pc.toNat = 254 := by decide

theorem witness_JmpResult : (0#8).toNat = (0 : RegIndex).val ∧ 7 < (8#8).toNat := by decide

/-- FL with E set, and FL = 0, 2 and 4. -/
theorem witness_JeqResult :
    (7#8).toNat = (7 : RegIndex).val ∧ { State.reset with fl := 1#8 }.fl.toNat % 2 = 1 ∧
    State.reset.fl.toNat % 2 = 0 ∧ { State.reset with fl := 2#8 }.fl.toNat % 2 = 0 ∧
    { State.reset with fl := 4#8 }.fl.toNat % 2 = 0 := by decide

theorem witness_JneResult :
    (0#8).toNat = (0 : RegIndex).val ∧ { State.reset with fl := 4#8 }.fl.toNat % 2 = 0 ∧
    { State.reset with fl := 1#8 }.fl.toNat % 2 = 1 := by decide

/-- The subroutine that does nothing: `u` is the state after the CALL. -/
theorem witness_CallThenReturnComesBack :
    (1#8).toNat = (1 : RegIndex).val ∧ (placed 253 [0x50#8, 1#8]).mem.wf ∧
    (placed 253 [0x50#8, 1#8]).pc.toNat ≤ 253 ∧
    ∃ t, exec (.call 1#8) (placed 253 [0x50#8, 1#8]) = .next t ∧
      ∃ u : State, u.readReg 7 = t.readReg 7 ∧ u.load (u.readReg 7) = t.load (t.readReg 7) :=
  ⟨by decide, by decide, by decide, _, rfl, _, rfl, rfl⟩

/-- Equal registers (R0 and R1) and different ones (R0 and R7). -/
theorem witness_CmpDecidesConditionalJumps :
    (0#8).toNat = (0 : RegIndex).val ∧ (1#8).toNat = (1 : RegIndex).val ∧
    (7#8).toNat = (7 : RegIndex).val ∧ State.reset.readReg 0 = State.reset.readReg 1 ∧
    State.reset.readReg 0 ≠ State.reset.readReg 7 ∧
    ∃ t, exec (.cmp 0#8 7#8) State.reset = .next t ∧ ∃ u : State, u.fl = t.fl :=
  ⟨by decide, by decide, by decide, by decide, by decide, _, rfl, _, rfl⟩

/-- ADD as the last instruction of memory: PC goes to 256. -/
theorem witness_CompletedInstructionAdvancesPc :
    (placed 253 [0xA0#8, 0#8, 7#8]).running = true ∧
    decode (placed 253 [0xA0#8, 0#8, 7#8]).fetch = .ok (.add 0#8 7#8, []) ∧
    fieldP (Instr.add 0#8 7#8).opcode = 0 ∧ (Instr.add 0#8 7#8).wellFormed = true ∧
    instrCauses (placed 253 [0xA0#8, 0#8, 7#8]) (.add 0#8 7#8) = [] :=
  ⟨rfl, rfl, by decide, by decide, rfl⟩

/-- JEQ with E clear at 254 and JNE with E set, not taken; JEQ with E set and JMP, which go to SP. -/
theorem witness_PcSetterTargetsAreBytes :
    ((placed 254 [0x55#8, 0#8]).running = true ∧
      decode (placed 254 [0x55#8, 0#8]).fetch = .ok (.jeq 0#8, []) ∧ fieldP (Instr.jeq 0#8).opcode = 1 ∧
      JumpNotTaken (placed 254 [0x55#8, 0#8]) (.jeq 0#8) ∧
      ∃ t, step (placed 254 [0x55#8, 0#8]) = .next t ∧ t.running = true ∧ t.pc.toNat = 256) ∧
    (decode { start [0x56#8, 7#8] with fl := 1#8 }.fetch = .ok (.jne 7#8, []) ∧
      JumpNotTaken { start [0x56#8, 7#8] with fl := 1#8 } (.jne 7#8) ∧
      ∃ t, step { start [0x56#8, 7#8] with fl := 1#8 } = .next t ∧ t.running = true ∧ t.pc.toNat = 2) ∧
    (decode { start [0x55#8, 7#8] with fl := 1#8 }.fetch = .ok (.jeq 7#8, []) ∧
      ¬ JumpNotTaken { start [0x55#8, 7#8] with fl := 1#8 } (.jeq 7#8) ∧
      ∃ t, step { start [0x55#8, 7#8] with fl := 1#8 } = .next t ∧ t.running = true ∧ t.pc.toNat = 244) ∧
    (decode (start [0x54#8, 7#8]).fetch = .ok (.jmp 7#8, []) ∧ fieldP (Instr.jmp 7#8).opcode = 1 ∧
      ¬ JumpNotTaken (start [0x54#8, 7#8]) (.jmp 7#8) ∧
      ∃ t, step (start [0x54#8, 7#8]) = .next t ∧ t.running = true ∧ t.pc.toNat = 244) :=
  ⟨⟨rfl, rfl, by decide, .inl ⟨_, rfl, by decide⟩, _, rfl, rfl, rfl⟩,
   ⟨rfl, .inr ⟨_, rfl, by decide⟩, _, rfl, rfl, rfl⟩,
   ⟨rfl, mt (jumpNotTaken_jeq _ _).1 (by decide), _, rfl, rfl, rfl⟩,
   rfl, by decide, not_jumpNotTaken_jmp _ _, _, rfl, rfl, rfl⟩

theorem witness_ArithmeticFrame :
    ∀ i ∈ [Instr.add 0#8 7#8, .sub 0#8 7#8, .mul 0#8 7#8, .div 0#8 7#8],
      (nextOf (exec i State.reset)).isSome = true := by decide

theorem witness_NoRegisterWrittenFrame :
    ∀ i ∈ [Instr.hlt, .prn 7#8, .jmp 7#8, .jeq 7#8, .jne 7#8, .cmp 7#8 0#8],
      (nextOf (exec i State.reset)).isSome = true := by decide

theorem witness_LoadingFrame :
    ∀ i ∈ [Instr.ldi 7#8 1#8, .pop 7#8, .ret], (nextOf (exec i State.reset)).isSome = true := by decide

theorem witness_StackStoreFrame :
    State.reset.mem.wf ∧
    ∀ i ∈ [Instr.push 7#8, .call 7#8], (nextOf (exec i State.reset)).isSome = true := by decide

theorem witness_OnlyCmpWritesFlags :
    ∃ t, step (start [0xA7#8, 0#8, 1#8]) = .next t ∧ t.fl ≠ (start [0xA7#8, 0#8, 1#8]).fl :=
  ⟨_, rfl, by decide⟩

theorem witness_OnlyPushAndCallStore :
    (start [0x45#8, 7#8]).mem.wf ∧
    ∃ t, step (start [0x45#8, 7#8]) = .next t ∧
      t.mem.read 0xF3 ≠ (start [0x45#8, 7#8]).mem.read 0xF3 :=
  ⟨by decide, _, rfl, by decide⟩

theorem witness_OnlyPrnEmits :
    ∃ t, step (start [0x47#8, 7#8]) = .next t ∧ t.out ≠ (start [0x47#8, 7#8]).out :=
  ⟨_, rfl, by decide⟩

theorem witness_EmittedEventsDoNotAffectStep :
    ∃ t, step { start [0x47#8, 7#8] with out := [1#8] } = .next t ∧ t.out = [1#8, 244#8] :=
  ⟨_, rfl, rfl⟩

theorem witness_ResetMeetsInvariant_memory : State.reset.mem.wf := by decide

/-- The invariant, in the start state of a small image. -/
theorem witness_invariant : (start [0x47#8, 7#8]).Inv :=
  ⟨by decide, by decide, by decide, rfl, rfl⟩

theorem witness_StepHasThreeOutcomes :
    (start [0x47#8, 7#8]).running = true ∧ (start [0x47#8, 7#8]).Inv ∧
    { State.reset with running := false }.running = false :=
  ⟨rfl, witness_invariant, rfl⟩

theorem witness_StepKeepsInvariant :
    (start [0x47#8, 7#8]).Inv ∧ ∃ t, step (start [0x47#8, 7#8]) = .next t :=
  ⟨witness_invariant, _, rfl⟩

/-- The state of program P5 before its PUSH, and the same with PUSH R7. -/
theorem witness_NextFetchSeesPushedByte :
    ∀ ra : Byte, ra ∈ [0#8, 7#8] →
    let s := (placed 6 [0x45#8, ra, 0x47#8]).writeReg 7 9#8
    s.running = true ∧ s.mem.wf ∧ decode s.fetch = .ok (.push ra, []) ∧
    (∃ a : RegIndex, ra.toNat = a.val) ∧ (s.readReg 7 - 1#8).toNat = s.pc.toNat + 2 := by
  intro ra h
  simp only [List.mem_cons, List.not_mem_nil, or_false] at h
  rcases h with rfl | rfl
  · exact ⟨rfl, by decide, rfl, ⟨0, rfl⟩, by decide⟩
  · exact ⟨rfl, by decide, rfl, ⟨7, rfl⟩, by decide⟩

/-- JMP R0 at 3 with R0 = 3. -/
theorem witness_SelfJumpRunsForever :
    ((placed 3 [0x54#8, 0#8]).writeReg 0 3#8).running = true ∧
    decode ((placed 3 [0x54#8, 0#8]).writeReg 0 3#8).fetch = .ok (.jmp 0#8, []) ∧
    (0#8).toNat = (0 : RegIndex).val ∧
    (((placed 3 [0x54#8, 0#8]).writeReg 0 3#8).readReg 0).toNat =
      ((placed 3 [0x54#8, 0#8]).writeReg 0 3#8).pc.toNat :=
  ⟨rfl, rfl, by decide, by decide⟩

theorem witness_StartStatesMeetInvariant : ∃ s, State.create [0x01#8] = some s := ⟨_, rfl⟩

/-- A start state, and the state after its step. -/
theorem witness_ReachableStatesMeetInvariant :
    ∃ s t, Reachable s ∧ step s = .next t ∧ Reachable t ∧ t.stopCause = 1#3 :=
  ⟨start [0x01#8], _, .start (img := [0x01#8]) rfl, rfl, .step (.start (img := [0x01#8]) rfl) rfl, rfl⟩

theorem witness_ViewsShowMemory : 0 < 256 ∧ 255 < 256 ∧ 0 < 8 ∧ 7 < 8 := by decide

theorem witness_LoadedTextGivesImage :
    (List.replicate 256 0x82#8).length ≤ 256 ∧ ([] : List Byte).length ≤ 256 := by
  simp only [List.length_replicate, List.length_nil]; decide

/-- A line of 7 digits, a line of 8 with one that is no digit, 257 lines, no argument and two. -/
theorem witness_BadLoadStartsNothing :
    "0000000".toList ∈ contentLines "0000000".toList ∧ "0000000".toList.length ≠ 8 ∧
    "00000002".toList ∈ contentLines "00000002\n".toList ∧
    (∃ c ∈ "00000002".toList, c ≠ '0' ∧ c ≠ '1') ∧
    256 < (contentLines (List.replicate 257 ['1', '\n']).flatten).length ∧
    ([] : List (List Char)).length ≠ 1 ∧ [['a'], ['b']].length ≠ 1 :=
  ⟨by decide, by decide, by decide, ⟨'2', by decide, by decide, by decide⟩, by decide +kernel, by decide,
    by decide⟩

end Sys2Proof.Tests
end

section
/-! PROOFS. The three outcomes of a step (00_scope.md R18). -/

namespace Sys2Proof.Machine

/-! ## What a raise answers (R220, R226) -/

/-- No cause has the code of HALT or of a state that runs (R220). -/
theorem Cause.code_mem_faultCodes (c : Cause) : c.code ∈ [2#3, 3#3, 4#3, 5#3] := by
  cases c <;> simp [Cause.code]

theorem sameButStatus_raise (s : State) (c : Cause) : SameButStatus s (s.raise c) :=
  ⟨rfl, rfl, rfl, rfl, rfl⟩

/-! ## When a step has a next state (R103) -/

theorem step_next_of_running {s : State} (hr : s.running = true) : ∃ t, step s = .next t := by
  rw [step, if_pos hr]
  cases decode s.fetch with
  | ok p => exact exec_next p.1 s
  | error r => exact ⟨_, rfl⟩

theorem step_ne_next_of_stopped {s : State} (hr : s.running = false) (t : State) :
    step s ≠ .next t := by
  intro h
  obtain ⟨hrun, -⟩ := step_cases h
  exact Bool.false_ne_true (hr.symm.trans hrun)

/-! ## The outcomes -/

/-- A step executes HLT, keeps the stop status, or raises a cause. -/
theorem step_status {s t : State} (h : step s = .next t) :
    (decode s.fetch = .ok (.hlt, []) ∧ t = s.halt.advancePc 1) ∨
    SameStatus s t ∨ ∃ c, t = s.raise c := by
  obtain ⟨-, ⟨i, hd, he⟩ | ⟨r, -, rfl⟩⟩ := step_cases h
  · rcases exec_status he with rfl | hkept | hraised
    · exact .inl ⟨hd, (Host.Outcome.next.inj he).symm⟩
    · exact .inr (.inl hkept)
    · exact .inr (.inr hraised)
  · exact .inr (.inr ⟨_, rfl⟩)

/-- Settles O49: `step_status` gives the three outcomes, and the invariant's stop record says that
STOPCAUSE is 0 while the state runs. -/
theorem stepHasThreeOutcomes : Obligations.StepHasThreeOutcomes := by
  unfold Obligations.StepHasThreeOutcomes
  refine fun s => ⟨fun hr hinv => ?_, step_ne_next_of_stopped⟩
  obtain ⟨hcause, -⟩ := stopRecord_running hinv.stop hr
  obtain ⟨t, ht⟩ := step_next_of_running hr
  refine ⟨t, ht, ?_⟩
  rcases step_status ht with ⟨hd, rfl⟩ | ⟨hrun, hkept, -⟩ | ⟨c, rfl⟩
  · exact .inr (.inl ⟨rfl, rfl, _, hd⟩)
  · exact .inl ⟨hrun.trans hr, hkept.trans hcause⟩
  · exact .inr (.inr ⟨rfl, c.code_mem_faultCodes, sameButStatus_raise s c⟩)

end Sys2Proof.Machine
end

section
/-! PROOFS. The reset values (10_state.md R25), and that CMP alone writes FL (R31). -/

namespace Sys2Proof.Machine

/-! ## What CMP alone writes (R31) -/

/-- Every instruction but CMP keeps FL, whether it completes or raises. -/
theorem exec_keeps_fl {i : Instr} {s t : State} (hi : ∀ ra rb, i ≠ .cmp ra rb)
    (h : exec i s = .next t) : t.fl = s.fl := by
  cases i with
  | hlt => cases h; rfl
  | ldi ra imm => obtain ⟨a, -, rfl⟩ | ⟨-, rfl⟩ := execLdi_next h <;> rfl
  | prn ra => obtain ⟨a, -, rfl⟩ | ⟨-, rfl⟩ := execPrn_next h <;> rfl
  | push ra => obtain ⟨a, -, rfl⟩ | ⟨-, rfl⟩ := execPush_next h <;> rfl
  | pop ra => obtain ⟨a, -, rfl⟩ | ⟨-, rfl⟩ := execPop_next h <;> rfl
  | call ra => obtain ⟨a, -, -, rfl⟩ | ⟨a, -, -, rfl⟩ | ⟨-, rfl⟩ := execCall_next h <;> rfl
  | ret => cases h; rfl
  | jmp ra => obtain ⟨a, -, rfl⟩ | ⟨-, rfl⟩ := execJmp_next h <;> rfl
  | jeq ra => obtain ⟨a, -, rfl⟩ | ⟨-, rfl⟩ := execJeq_next h <;> rfl
  | jne ra => obtain ⟨a, -, rfl⟩ | ⟨-, rfl⟩ := execJne_next h <;> rfl
  | add ra rb => obtain ⟨a, b, -, -, rfl⟩ | ⟨-, rfl⟩ | ⟨-, -, rfl⟩ := execAdd_next h <;> rfl
  | sub ra rb => obtain ⟨a, b, -, -, rfl⟩ | ⟨-, rfl⟩ | ⟨-, -, rfl⟩ := execSub_next h <;> rfl
  | mul ra rb => obtain ⟨a, b, -, -, rfl⟩ | ⟨-, rfl⟩ | ⟨-, -, rfl⟩ := execMul_next h <;> rfl
  | div ra rb =>
    obtain ⟨a, b, -, -, -, rfl⟩ | ⟨a, b, -, -, -, rfl⟩ | ⟨-, rfl⟩ | ⟨-, -, rfl⟩ := execDiv_next h
      <;> rfl
  | cmp ra rb => exact absurd rfl (hi ra rb)

/-- Settles O45: a rejected fetch raises and keeps FL, and so does every decoded instruction but CMP. -/
theorem onlyCmpWritesFlags : Obligations.OnlyCmpWritesFlags := by
  unfold Obligations.OnlyCmpWritesFlags
  intro s t hstep hfl
  obtain ⟨-, ⟨i, hdecode, hexec⟩ | ⟨r, -, rfl⟩⟩ := step_cases hstep
  · by_cases hcmp : ∃ ra rb, i = .cmp ra rb
    · obtain ⟨ra, rb, rfl⟩ := hcmp
      exact ⟨ra, rb, [], hdecode⟩
    · exact absurd (exec_keeps_fl (fun ra rb hi => hcmp ⟨ra, rb, hi⟩) hexec) hfl
  · exact absurd (raise_fl s _) hfl

/-! ## The reset values (R25) -/

/-- At reset SP is 244 and every other register is 0. -/
theorem reset_readReg (r : RegIndex) : State.reset.readReg r = if r = 7 then 244#8 else 0#8 := by
  revert r; decide

/-- Settles O1: the registers by `reset_readReg`, memory because no cell is listed, and the other
fields as `State.reset` gives them. -/
theorem resetStateValues : Obligations.ResetStateValues := by
  unfold Obligations.ResetStateValues
  refine ⟨fun r hr => ?_, reset_readReg 7, rfl, rfl, rfl, rfl, rfl, rfl, Memory.read_nil⟩
  rw [reset_readReg, if_neg hr]

end Sys2Proof.Machine
end

section
/-! PROOFS. The fields of an opcode byte (30_encoding.md R70, R73). -/

namespace Sys2Proof.Machine

/-! ## Each field as arithmetic on the byte -/

/-- The top two bits are what is left after six are shifted out. -/
theorem operandCount_eq_fieldN (op : Byte) : operandCount op = fieldN op := by
  have hlt : op.toNat / 64 < 4 := by have := op.isLt; omega
  simp [operandCount, fieldN, BitVec.extractLsb'_toNat, Nat.shiftRight_eq_div_pow,
    Nat.mod_eq_of_lt hlt]

/-- Bit `k` of a byte is the parity of its quotient by `2 ^ k`. -/
theorem getLsbD_iff_div_mod (op : Byte) (k : Nat) :
    op.getLsbD k = true ↔ op.toNat / 2 ^ k % 2 = 1 := by
  rw [← BitVec.testBit_toNat, Nat.testBit_eq_decide_div_mod_eq, decide_eq_true_iff]

theorem aluFlag_iff_fieldA (op : Byte) : aluFlag op = true ↔ fieldA op = 1 :=
  getLsbD_iff_div_mod op 5

theorem pcSetterFlag_iff_fieldP (op : Byte) : pcSetterFlag op = true ↔ fieldP op = 1 :=
  getLsbD_iff_div_mod op 4

/-- Settles O5: N is the quotient by 64 (`operandCount_eq_fieldN`), the length is one more by its
definition, and the two flags are single bits (`getLsbD_iff_div_mod`). -/
theorem opcodeFieldsAreTheSpecsBits : Obligations.OpcodeFieldsAreTheSpecsBits := by
  unfold Obligations.OpcodeFieldsAreTheSpecsBits
  intro op
  have hN : operandCount op = op.toNat / 64 := operandCount_eq_fieldN op
  exact ⟨hN, congrArg (· + 1) hN, aluFlag_iff_fieldA op, pcSetterFlag_iff_fieldP op⟩

end Sys2Proof.Machine
end

section
/-! PROOFS. The execution cycle (40_execution_cycle.md): the fetch above memory (R104), the illegal
opcodes (R112, R114), the register check (R107), and the advance of PC (R110). -/

namespace Sys2Proof.Machine

/-! ## A running step by what the fetch decodes to (R100) -/

theorem step_of_decoded {s : State} {i : Instr} {rest : List Byte} (hr : s.running = true)
    (hd : decode s.fetch = .ok (i, rest)) : step s = exec i s := by
  rw [step, if_pos hr, hd]

theorem step_of_rejected {s : State} {r : Reject} (hr : s.running = true)
    (hd : decode s.fetch = .error r) : step s = .next (s.raise (rejectCause s.pc r)) := by
  rw [step, if_pos hr, hd]

/-! ## The fetch above memory (R104) -/

/-- Settles O13: above 255 the fetch reads no byte (`fetch_of_ge`), and an empty fetch is rejected as a
missing opcode. -/
theorem fetchAboveMemoryRaises : Obligations.FetchAboveMemoryRaises := by
  unfold Obligations.FetchAboveMemoryRaises
  intro s hr hpc
  have hd : decode s.fetch = .error .noOpcode := by rw [fetch_of_ge hpc]; rfl
  exact step_of_rejected hr hd

/-! ## Illegal opcodes (R112, R114) -/

theorem operandsFetched_eq_fieldN (op : Byte) : operandsFetched op = min (fieldN op) 2 := by
  rw [operandsFetched, operandCount_eq_fieldN]; rfl

/-- The A bit of a defined opcode says which of the two lists holds it (R77). -/
theorem opcode_listed (i : Instr) :
    (fieldA i.opcode = 1 ∧ i.opcode ∈ aluOpcodes) ∨
    (fieldA i.opcode = 0 ∧ i.opcode ∈ tableOpcodes) := by
  cases i <;> simp only [Instr.opcode] <;> decide

theorem opcode_ne_of_unlisted {op : Byte} (halu : fieldA op = 1 → op ∉ aluOpcodes)
    (htable : fieldA op = 0 → op ∉ tableOpcodes) (i : Instr) : i.opcode ≠ op := by
  rintro rfl
  rcases opcode_listed i with ⟨hA, hin⟩ | ⟨hA, hin⟩
  · exact halu hA hin
  · exact htable hA hin

/-- An opcode of no instruction is rejected by its A bit, once its operand bytes are there. -/
theorem decode_fetch_of_illegal {s : State}
    (hfit : s.pc.toNat + operandsFetched (s.mem.read s.pc.toNat) ≤ 255)
    (hop : ∀ i : Instr, i.opcode ≠ s.mem.read s.pc.toNat) :
    decode s.fetch = .error (if aluFlag (s.mem.read s.pc.toNat)
      then .unsupportedAluOperation (s.mem.read s.pc.toNat)
      else .unknownInstruction (s.mem.read s.pc.toNat)) := by
  cases hd : decode s.fetch with
  | ok p =>
    obtain ⟨-, -, hread, -⟩ := fetch_decoded hd
    exact absurd hread.symm (hop p.1)
  | error r =>
    rcases fetch_rejected hd with ⟨hpc, -⟩ | ⟨-, hmiss, -⟩ | ⟨-, -, rfl⟩
    · omega
    · omega
    · rfl

/-- Settles O15: an opcode off the list of its A bit is no instruction's (`opcode_ne_of_unlisted`), so
its fetch is rejected by that bit (`decode_fetch_of_illegal`). -/
theorem illegalOpcodeRaises : Obligations.IllegalOpcodeRaises := by
  unfold Obligations.IllegalOpcodeRaises
  rintro s op hr rfl hfit
  have hfit' : s.pc.toNat + operandsFetched (s.mem.read s.pc.toNat) ≤ 255 :=
    operandsFetched_eq_fieldN _ ▸ hfit
  refine ⟨fun (hA : fieldA _ = 1) hlist => ?_, fun (hA : fieldA _ = 0) hlist => ?_⟩
  · have hop := opcode_ne_of_unlisted (fun _ => hlist) (fun h0 => by omega)
    have hd := decode_fetch_of_illegal hfit' hop
    rw [if_pos ((aluFlag_iff_fieldA _).2 hA)] at hd
    exact step_of_rejected hr hd
  · have hop := opcode_ne_of_unlisted (fun h1 => by omega) (fun _ => hlist)
    have hA1 : ¬ aluFlag (s.mem.read s.pc.toNat) = true := by rw [aluFlag_iff_fieldA]; omega
    have hd := decode_fetch_of_illegal hfit' hop
    rw [if_neg hA1] at hd
    exact step_of_rejected hr hd

/-! ## What an instruction with legal register operands does -/

/-- What a completed instruction leaves, whichever it is: HLT's stop or the stop status as it was, and
without the PC-setter flag PC past the instruction (R110, R160, R226). -/
structure Completed (i : Instr) (s t : State) : Prop where
  status : (i = .hlt ∧ t = s.halt.advancePc 1) ∨ SameStatus s t
  pc : fieldP i.opcode = 0 → t.pc = s.pc + BitVec.ofNat 9 (i.operands.length + 1)

theorem names_of_wellFormed {i : Instr} {ra : Byte} (hw : i.wellFormed = true)
    (hm : ra ∈ i.regOperands) : ∃ a : RegIndex, ra.toNat = a.val :=
  names_of_le (of_decide_eq_true (List.all_eq_true.1 hw ra hm))

theorem names_of_wellFormed_pair {i : Instr} {ra rb : Byte} (hw : i.wellFormed = true)
    (h : i.regOperands = [ra, rb]) : ∃ a b : RegIndex, ra.toNat = a.val ∧ rb.toNat = b.val := by
  obtain ⟨a, ha⟩ := names_of_wellFormed (ra := ra) hw (by simp [h])
  obtain ⟨b, hb⟩ := names_of_wellFormed (ra := rb) hw (by simp [h])
  exact ⟨a, b, ha, hb⟩

/-- An instruction whose register operands are legal completes, or raises its own cause: CALL for its
return address, DIV for a divisor 0 (R190, R133). -/
theorem exec_wellFormed_cases {i : Instr} (s : State) (hw : i.wellFormed = true) :
    (instrCauses s i = [] ∧ ∃ t, exec i s = .next t ∧ Completed i s t) ∨
    (∃ c, instrCauses s i = [c] ∧ c.kind ≠ 3#3 ∧ exec i s = .next (s.raise c)) := by
  cases i with
  | hlt => exact .inl ⟨rfl, _, rfl, .inl ⟨rfl, rfl⟩, fun _ => rfl⟩
  | ret =>
    exact .inl ⟨rfl, _, rfl, .inr ⟨rfl, rfl, rfl⟩,
      fun hp => absurd hp (show fieldP Opcode.ret ≠ 0 by decide)⟩
  | ldi ra imm =>
    obtain ⟨a, ha⟩ := names_of_wellFormed hw (.head _)
    exact .inl ⟨rfl, _, execLdi_legal ha imm, .inr ⟨rfl, rfl, rfl⟩, fun _ => rfl⟩
  | prn ra =>
    obtain ⟨a, ha⟩ := names_of_wellFormed hw (.head _)
    exact .inl ⟨rfl, _, execPrn_legal ha, .inr ⟨rfl, rfl, rfl⟩, fun _ => rfl⟩
  | push ra =>
    obtain ⟨a, ha⟩ := names_of_wellFormed hw (.head _)
    exact .inl ⟨rfl, _, execPush_legal ha, .inr ⟨rfl, rfl, rfl⟩, fun _ => rfl⟩
  | pop ra =>
    obtain ⟨a, ha⟩ := names_of_wellFormed hw (.head _)
    exact .inl ⟨rfl, _, execPop_legal ha, .inr ⟨rfl, rfl, rfl⟩, fun _ => rfl⟩
  | jmp ra =>
    obtain ⟨a, ha⟩ := names_of_wellFormed hw (.head _)
    exact .inl ⟨rfl, _, execJmp_legal ha, .inr ⟨rfl, rfl, rfl⟩,
      fun hp => absurd hp (show fieldP Opcode.jmp ≠ 0 by decide)⟩
  | jeq ra =>
    obtain ⟨a, ha⟩ := names_of_wellFormed hw (.head _)
    exact .inl ⟨rfl, _, execJeq_legal ha, .inr ⟨rfl, rfl, rfl⟩,
      fun hp => absurd hp (show fieldP Opcode.jeq ≠ 0 by decide)⟩
  | jne ra =>
    obtain ⟨a, ha⟩ := names_of_wellFormed hw (.head _)
    exact .inl ⟨rfl, _, execJne_legal ha, .inr ⟨rfl, rfl, rfl⟩,
      fun hp => absurd hp (show fieldP Opcode.jne ≠ 0 by decide)⟩
  | add ra rb =>
    obtain ⟨a, b, ha, hb⟩ := names_of_wellFormed_pair hw rfl
    exact .inl ⟨rfl, _, execAdd_legal ha hb, .inr ⟨rfl, rfl, rfl⟩, fun _ => rfl⟩
  | sub ra rb =>
    obtain ⟨a, b, ha, hb⟩ := names_of_wellFormed_pair hw rfl
    exact .inl ⟨rfl, _, execSub_legal ha hb, .inr ⟨rfl, rfl, rfl⟩, fun _ => rfl⟩
  | mul ra rb =>
    obtain ⟨a, b, ha, hb⟩ := names_of_wellFormed_pair hw rfl
    exact .inl ⟨rfl, _, execMul_legal ha hb, .inr ⟨rfl, rfl, rfl⟩, fun _ => rfl⟩
  | cmp ra rb =>
    obtain ⟨a, b, ha, hb⟩ := names_of_wellFormed_pair hw rfl
    exact .inl ⟨rfl, _, execCmp_legal ha hb, .inr ⟨rfl, rfl, rfl⟩, fun _ => rfl⟩
  | call ra =>
    obtain ⟨a, ha⟩ := names_of_wellFormed hw (.head _)
    rcases Nat.lt_or_ge 255 (s.pc.toNat + 2) with hpc | hpc
    · refine .inr ⟨_, causeIf_pos _ hpc, show 4#3 ≠ 3#3 by decide, (execCall_noRoom ha hpc).trans ?_⟩
      rw [BitVec.ofNat_add, BitVec.ofNat_toNat, BitVec.setWidth_eq]
    · exact .inl ⟨causeIf_neg _ (by omega), _, execCall_legal ha hpc, .inr ⟨rfl, rfl, rfl⟩,
        fun hp => absurd hp (show fieldP Opcode.call ≠ 0 by decide)⟩
  | div ra rb =>
    obtain ⟨a, b, ha, hb⟩ := names_of_wellFormed_pair hw rfl
    by_cases h0 : s.readReg b = 0#8
    · exact .inr ⟨_, causeIf_pos _ ⟨b, hb.symm, h0⟩, by decide, execDiv_zero ha hb h0⟩
    · have hdiv : ¬ ∃ d : RegIndex, d.val = rb.toNat ∧ s.readReg d = 0#8 := by
        rintro ⟨d, hd, hzero⟩
        obtain rfl : d = b := Fin.ext (hd.trans hb)
        exact h0 hzero
      exact .inl ⟨causeIf_neg _ hdiv, _, execDiv_legal ha hb h0, .inr ⟨rfl, rfl, rfl⟩, fun _ => rfl⟩

/-! ## The register check (R107) -/

/-- The check of the statements on a list of register operands. -/
abbrev firstAboveSeven (regs : List Byte) : Option Byte :=
  regs.find? fun ra => decide (7 < ra.toNat)

theorem wellFormed_of_firstAboveSeven {i : Instr} (h : firstAboveSeven i.regOperands = none) :
    i.wellFormed = true := by
  refine List.all_eq_true.2 fun ra hm => decide_eq_true ?_
  have hra := List.find?_eq_none.1 h ra hm
  simpa using hra

theorem conclude_withReg_fault {ra x : Byte} (h : firstAboveSeven [ra] = some x) (op : Byte)
    (s : State) (rule : RegIndex → Except Cause State) :
    conclude op s (withReg ra rule) = .next (registerFault s x) := by
  obtain ⟨hra, rfl⟩ : 7 < ra.toNat ∧ ra = x := by simpa [List.find?_cons_eq_some] using h
  rw [withReg_of_above hra, conclude_error]

theorem conclude_withRegs_fault {ra rb x : Byte} (h : firstAboveSeven [ra, rb] = some x) (op : Byte)
    (s : State) (rule : RegIndex → RegIndex → Except Cause State) :
    conclude op s (withRegs ra rb rule) = .next (registerFault s x) := by
  obtain ⟨hra, rfl⟩ | ⟨hra, hrb, rfl⟩ :
      7 < ra.toNat ∧ ra = x ∨ ra.toNat ≤ 7 ∧ 7 < rb.toNat ∧ rb = x := by
    simpa [List.find?_cons_eq_some] using h
  · rw [withRegs_of_above_left hra, conclude_error]
  · rw [withRegs_of_above_right hra hrb, conclude_error]

/-- Every meaning checks its register operands first, in the order ra, rb. -/
theorem exec_registerFault {i : Instr} {x : Byte} (h : firstAboveSeven i.regOperands = some x)
    (s : State) : exec i s = .next (registerFault s x) := by
  cases i with
  | hlt | ret => cases h
  | ldi ra imm => exact conclude_withReg_fault h _ s _
  | prn ra | push ra | pop ra | call ra | jmp ra | jeq ra | jne ra =>
    exact conclude_withReg_fault h _ s _
  | add ra rb | sub ra rb | mul ra rb | div ra rb | cmp ra rb =>
    exact conclude_withRegs_fault h _ s _

/-- Settles O18: a register operand above 7 is a register fault in every meaning
(`exec_registerFault`); without one the instruction completes, or raises a cause of its own, whose KIND is
not that of a register index (`exec_wellFormed_cases`). -/
theorem registerAboveSevenRaises : Obligations.RegisterAboveSevenRaises := by
  unfold Obligations.RegisterAboveSevenRaises
  refine fun i s => ⟨fun x hx => exec_registerFault hx s, fun hr hnone t ht => ?_⟩
  rcases exec_wellFormed_cases s (wellFormed_of_firstAboveSeven hnone) with
    ⟨-, u, hu, hdone⟩ | ⟨c, -, hkind, hc⟩
  · obtain rfl : t = u := Host.Outcome.next.inj (ht.symm.trans hu)
    rcases hdone.status with ⟨-, rfl⟩ | ⟨hrun, -, -⟩
    · exact .inr (.inl (by simp))
    · exact .inl (hrun.trans hr)
  · obtain rfl : t = s.raise c := Host.Outcome.next.inj (ht.symm.trans hc)
    exact .inr (.inr (by rwa [raise_stopKind]))

/-! ## The advance of PC (R110) -/

theorem fieldN_opcode (i : Instr) : fieldN i.opcode = i.operands.length := by
  rw [← operandCount_eq_fieldN, operandCount_opcode]

/-- Settles O39: the instruction completes with the 9-bit advance (`exec_wellFormed_cases`), which does
not wrap because every byte was fetched from an address of MEM (`fetch_decoded`). -/
theorem completedInstructionAdvancesPc : Obligations.CompletedInstructionAdvancesPc := by
  unfold Obligations.CompletedInstructionAdvancesPc
  intro s i rest hr hd hP hw hcauses
  obtain ⟨-, hfit, -, -⟩ := fetch_decoded hd
  have hroom : s.pc.toNat + (fieldN i.opcode + 1) ≤ 256 := by rw [fieldN_opcode]; omega
  rcases exec_wellFormed_cases s hw with ⟨-, t, ht, hdone⟩ | ⟨c, hc, -, -⟩
  · have hpc : t.pc.toNat = s.pc.toNat + (fieldN i.opcode + 1) := by
      rw [hdone.pc hP, ← fieldN_opcode, advance_toNat hroom]
    exact ⟨t, (step_of_decoded hr hd).trans ht, hpc, hpc ▸ hroom⟩
  · simp [hcauses] at hc

end Sys2Proof.Machine
end

section
/-! PROOFS. The ALU instructions (41_alu.md R130 to R138). -/

namespace Sys2Proof.Machine

/-! ## What every instruction's encoding decodes to (R74, R76) -/

/-- The bytes of an instruction decode to it, whatever bytes come after them. -/
theorem decode_encode_append (i : Instr) (rest : List Byte) :
    decode (encode i ++ rest) = .ok (i, rest) := by
  have henough : operandsFetched i.opcode ≤ (i.operands ++ rest).length := by
    rw [operandsFetched_opcode, List.length_append]; omega
  rw [encode, List.cons_append, decode_of_enough henough, operandsFetched_opcode, List.take_left,
    List.drop_left, decodeOpcode_operands]
  rfl

/-! ## The register checks of an instruction with two register operands (R107, R137) -/

theorem checksTwoRegisters_of_regOperands {mk : Byte → Byte → Instr}
    (h : ∀ ra rb, (mk ra rb).regOperands = [ra, rb]) : ChecksTwoRegisters mk := by
  refine fun s ra rb => ⟨fun hra => ?_, fun hra hrb => ?_⟩
  · have hfirst : firstAboveSeven (mk ra rb).regOperands = some ra := by simp [h, hra]
    exact exec_registerFault hfirst s
  · have hfirst : firstAboveSeven (mk ra rb).regOperands = some rb := by
      simp [h, Nat.not_lt.2 hra, hrb]
    exact exec_registerFault hfirst s

/-! ## The results as the rules write them (R130 to R132, R136) -/

theorem aluAdd_eq (x y : Byte) : aluAdd x y = BitVec.ofNat 8 ((x.toNat + y.toNat) % 256) :=
  BitVec.eq_of_toNat_eq (by simp [aluAdd_toNat])

theorem aluSub_eq (x y : Byte) : aluSub x y = BitVec.ofNat 8 ((256 + x.toNat - y.toNat) % 256) :=
  BitVec.eq_of_toNat_eq (by simp [aluSub_toNat])

theorem aluMul_eq (x y : Byte) : aluMul x y = BitVec.ofNat 8 ((x.toNat * y.toNat) % 256) :=
  BitVec.eq_of_toNat_eq (by simp [aluMul_toNat])

/-! ## The instructions -/

/-- Settles O20: the sum by `execAdd_legal` and `aluAdd_eq`. -/
theorem addResult : Obligations.AddResult := by
  unfold Obligations.AddResult
  refine ⟨fun ra rb => decode_encode_append (.add ra rb), fun s ra rb a b ha hb => ?_,
    checksTwoRegisters_of_regOperands fun _ _ => rfl⟩
  rw [← aluAdd_eq]
  exact execAdd_legal ha hb

/-- Settles O21: the difference by `execSub_legal` and `aluSub_eq`, which reduces a negative one. -/
theorem subResult : Obligations.SubResult := by
  unfold Obligations.SubResult
  refine ⟨fun ra rb => decode_encode_append (.sub ra rb), fun s ra rb a b ha hb => ?_,
    checksTwoRegisters_of_regOperands fun _ _ => rfl⟩
  rw [← aluSub_eq]
  exact execSub_legal ha hb

/-- Settles O22: the product by `execMul_legal` and `aluMul_eq`. -/
theorem mulResult : Obligations.MulResult := by
  unfold Obligations.MulResult
  refine ⟨fun ra rb => decode_encode_append (.mul ra rb), fun s ra rb a b ha hb => ?_,
    checksTwoRegisters_of_regOperands fun _ _ => rfl⟩
  rw [← aluMul_eq]
  exact execMul_legal ha hb

/-- Settles O23: a divisor other than 0 by `execDiv_legal`, 0 by `execDiv_zero`, whose record is DIV's
opcode. -/
theorem divResult : Obligations.DivResult := by
  unfold Obligations.DivResult
  exact ⟨fun ra rb => decode_encode_append (.div ra rb),
    fun s ra rb a b ha hb => ⟨execDiv_legal ha hb, execDiv_zero ha hb⟩,
    checksTwoRegisters_of_regOperands fun _ _ => rfl⟩

/-- Settles O24: FL is `compareFlags` of the two registers (`execCmp_legal`), which is the rule's three
cases. -/
theorem cmpResult : Obligations.CmpResult := by
  unfold Obligations.CmpResult
  exact ⟨fun ra rb => decode_encode_append (.cmp ra rb),
    fun s ra rb a b ha hb => execCmp_legal ha hb,
    checksTwoRegisters_of_regOperands fun _ _ => rfl⟩

end Sys2Proof.Machine
end

section
/-! PROOFS. The dispatch instructions without control transfer (42_dispatch_data.md R160 to R167). -/

namespace Sys2Proof.Machine

/-! ## The register check of an instruction with one register operand (R107) -/

theorem checksOneRegister_of_regOperands {mk : Byte → Instr}
    (h : ∀ ra, (mk ra).regOperands = [ra]) : ChecksOneRegister mk := by
  intro s ra hra
  have hfirst : firstAboveSeven (mk ra).regOperands = some ra := by simp [h, hra]
  exact exec_registerFault hfirst s

/-! ## The register file by its registers (R20) -/

theorem regs_eq_of_readReg {s t : State} (h : ∀ r : RegIndex, s.readReg r = t.readReg r) :
    s.regs = t.regs :=
  Vector.ext fun i hi => h ⟨i, hi⟩

/-! ## The store at the decremented SP, which PUSH and CALL share (R164, R190) -/

theorem load_store_decSp {s : State} (hwf : s.mem.wf) (v : Byte) :
    (s.decSp.store s.decSp.sp v).load (s.sp - 1#8) = v := by
  rw [decSp_sp]
  exact load_store_same (s := s.decSp) hwf _ v

theorem sameMemoryExcept_store_decSp {s : State} (hwf : s.mem.wf) (v : Byte) :
    SameMemoryExcept s (s.decSp.store s.decSp.sp v) (s.sp - 1#8) := by
  rw [decSp_sp]
  exact fun _ hne => read_store_other (s := s.decSp) hwf _ v hne

theorem sameRegsExcept_decSp (s : State) : SameRegsExcept s s.decSp [7] := by
  intro r hr
  rw [readReg_decSp, if_neg (by simpa using hr)]

/-! ## Instructions that do not use the stack -/

/-- Settles O25: HLT has no operand to check, and its rule is `State.halt` (`execHlt_legal`). -/
theorem hltResult : Obligations.HltResult := by
  unfold Obligations.HltResult
  exact ⟨fun rest => decode_encode_append .hlt rest, execHlt_legal⟩

/-- Settles O26: a legal `ra` by `execLdi_legal`, for every immediate. -/
theorem ldiResult : Obligations.LdiResult := by
  unfold Obligations.LdiResult
  exact ⟨fun ra imm => decode_encode_append (.ldi ra imm),
    fun s ra imm a ha => execLdi_legal ha imm,
    fun imm => checksOneRegister_of_regOperands fun _ => rfl⟩

/-- Settles O27: a legal `ra` by `execPrn_legal`; the register check comes before the event. -/
theorem prnResult : Obligations.PrnResult := by
  unfold Obligations.PrnResult
  exact ⟨fun ra => decode_encode_append (.prn ra), fun s ra a ha => execPrn_legal ha,
    checksOneRegister_of_regOperands fun _ => rfl⟩

/-- Settles O31: PRN reads the register that LDI wrote (`readReg_writeReg_same`). -/
theorem ldiThenPrnEmitsImmediate : Obligations.LdiThenPrnEmitsImmediate := by
  unfold Obligations.LdiThenPrnEmitsImmediate
  intro s ra v hra
  obtain ⟨a, ha⟩ := names_of_le hra
  exact ⟨_, _, execLdi_legal ha v, execPrn_legal ha, by simp⟩

/-! ## The stack -/

/-- Settles O28: the byte stored is R[a] of the state with SP decremented (`readReg_decSp`), and the
store changes the cell at that SP alone. -/
theorem pushResult : Obligations.PushResult := by
  unfold Obligations.PushResult
  refine ⟨fun ra => decode_encode_append (.push ra), fun s ra a ha hwf => ?_,
    checksOneRegister_of_regOperands fun _ => rfl⟩
  have hload : (s.decSp.store s.decSp.sp (s.decSp.readReg a)).load (s.sp - 1#8) =
      if a = 7 then s.sp - 1#8 else s.readReg a :=
    (load_store_decSp hwf _).trans (readReg_decSp s a)
  exact ⟨_, execPush_legal ha, decSp_sp s, sameRegsExcept_decSp s, hload,
    sameMemoryExcept_store_decSp hwf _, rfl, rfl, rfl, rfl, rfl, rfl⟩

/-- POP's registers: SP is incremented after R[a] is written, so POP R7 increments the byte it took. -/
theorem readReg_incSp_writeReg (s : State) (a r : RegIndex) (v : Byte) :
    (s.writeReg a v).incSp.readReg r =
      if r = 7 then (if a = 7 then v else s.sp) + 1#8 else if r = a then v else s.readReg r := by
  rw [readReg_incSp, sp_writeReg, readReg_writeReg]

/-- Settles O29: the registers by `readReg_incSp_writeReg`; POP stores nothing. -/
theorem popResult : Obligations.PopResult := by
  unfold Obligations.PopResult
  refine ⟨fun ra => decode_encode_append (.pop ra), fun s ra a ha => ?_,
    checksOneRegister_of_regOperands fun _ => rfl⟩
  have hregs := readReg_incSp_writeReg s a (v := s.load s.sp)
  refine ⟨_, execPop_legal ha, fun ha7 => ⟨(hregs a).trans ?_, (hregs 7).trans ?_⟩,
    fun ha7 => (hregs 7).trans ?_, fun r hr => (hregs r).trans ?_, rfl, rfl, rfl, rfl, rfl, rfl, rfl⟩
  · simp [ha7]
  · simp [ha7]
  · simp [ha7]
  · obtain ⟨hra, hr7⟩ : r ≠ a ∧ r ≠ 7 := by simpa using hr
    simp [hra, hr7]

/-- Settles O30, from what PUSH and POP do: POP takes the byte PUSH stored, from the SP that PUSH left,
and its increment undoes the decrement; for R7 the byte is itself the decremented SP. -/
theorem pushPopRoundTrip : Obligations.PushPopRoundTrip := by
  unfold Obligations.PushPopRoundTrip
  intro s ra a ha hwf
  obtain ⟨-, hpush, -⟩ := pushResult
  obtain ⟨-, hpop, -⟩ := popResult
  obtain ⟨t, ht, htsp, htregs, htload, htmem, htpc, htfl, htout, htrun, htcause, htinfo⟩ :=
    hpush s ra a ha hwf
  obtain ⟨u, hu, hother, hseven, huregs, humem, hupc, hufl, huout, hurun, hucause, huinfo⟩ :=
    hpop t ra a ha
  rw [htsp, htload] at hother hseven
  have hload : u.load (s.readReg 7 - 1#8) = t.load (s.readReg 7 - 1#8) := by
    rw [load_eq, load_eq, humem]
  have hsp : u.readReg 7 = s.readReg 7 := by
    by_cases ha7 : a = 7
    · rw [hseven ha7, if_pos ha7, BitVec.sub_add_cancel]
    · rw [(hother ha7).2, BitVec.sub_add_cancel]
  have hreg : ∀ r : RegIndex, u.readReg r = s.readReg r := by
    intro r
    by_cases hr7 : r = 7
    · rw [hr7, hsp]
    by_cases hra : r = a
    · have ha7 : a ≠ 7 := hra ▸ hr7
      rw [hra, (hother ha7).1, if_neg ha7]
    · rw [huregs r (by simp [hra, hr7]), htregs r (by simp [hr7])]
  have hpc : u.pc = s.pc + 4#9 := by rw [hupc, htpc, BitVec.add_assoc]; rfl
  exact ⟨t, u, ht, hu, regs_eq_of_readReg hreg, hload.trans htload,
    fun addr hne => humem ▸ htmem addr hne, hpc, hufl.trans htfl, huout.trans htout,
    hurun.trans htrun, hucause.trans htcause, huinfo.trans htinfo⟩

end Sys2Proof.Machine
end

section
/-! PROOFS. The control-transfer instructions (43_dispatch_control.md R190 to R198). -/

namespace Sys2Proof.Machine

/-! ## E as the rules read it (R12, R193, R194) -/

theorem flagE_of_odd {s : State} (h : s.fl.toNat % 2 = 1) : s.flagE = true :=
  (flagE_eq s).trans (decide_eq_true h)

theorem flagE_of_even {s : State} (h : s.fl.toNat % 2 = 0) : s.flagE = false :=
  (flagE_eq s).trans (decide_eq_false (by omega))

/-- With FL as a comparison leaves it, E says whether the compared bytes are equal (R134, R198). -/
theorem flagE_of_compareFlags {s : State} {x y : Byte} (h : s.fl = compareFlags x y) :
    s.flagE = decide (x = y) := by
  rw [State.flagE, h, compareFlags_equal]

/-! ## Jumps -/

/-- Settles O34: a legal `ra` by `execJmp_legal`, which writes PC and nothing else. -/
theorem jmpResult : Obligations.JmpResult := by
  unfold Obligations.JmpResult
  exact ⟨fun ra => decode_encode_append (.jmp ra), fun s ra a ha => execJmp_legal ha,
    checksOneRegister_of_regOperands fun _ => rfl⟩

/-- Settles O35: a legal `ra` by `execJeq_legal`, split by E; the register check comes before E is
looked at. -/
theorem jeqResult : Obligations.JeqResult := by
  unfold Obligations.JeqResult
  refine ⟨fun ra => decode_encode_append (.jeq ra), fun s ra a ha => ⟨fun hodd => ?_, fun heven => ?_⟩,
    checksOneRegister_of_regOperands fun _ => rfl⟩
  · exact (execJeq_legal ha).trans (by rw [flagE_of_odd hodd]; rfl)
  · exact (execJeq_legal ha).trans (by rw [flagE_of_even heven]; rfl)

/-- Settles O36: a legal `ra` by `execJne_legal`, split by E; the register check comes before E is
looked at. -/
theorem jneResult : Obligations.JneResult := by
  unfold Obligations.JneResult
  refine ⟨fun ra => decode_encode_append (.jne ra), fun s ra a ha => ⟨fun heven => ?_, fun hodd => ?_⟩,
    checksOneRegister_of_regOperands fun _ => rfl⟩
  · exact (execJne_legal ha).trans (by rw [flagE_of_even heven]; rfl)
  · exact (execJne_legal ha).trans (by rw [flagE_of_odd hodd]; rfl)

/-- Settles O38: CMP leaves `compareFlags` of the two registers, so E in any state with that FL is their
equality (`flagE_of_compareFlags`), and E decides both jumps. -/
theorem cmpDecidesConditionalJumps : Obligations.CmpDecidesConditionalJumps := by
  unfold Obligations.CmpDecidesConditionalJumps
  refine fun s ra rb rc a b c ha hb hc => ⟨_, execCmp_legal ha hb, fun u hfl => ?_⟩
  have hE : u.flagE = decide (s.readReg a = s.readReg b) := flagE_of_compareFlags hfl
  have hjeq := execJeq_legal (s := u) hc
  have hjne := execJne_legal (s := u) hc
  simp only [hE, decide_eq_true_eq] at hjeq hjne
  exact ⟨hjeq, hjne⟩

/-! ## CALL and RET -/

/-- A return address of at most 255 is stored as it is (R190). -/
theorem returnByte_toNat {n : Nat} (h : n ≤ 253) : (BitVec.ofNat 8 (n + 2)).toNat = n + 2 := by
  rw [BitVec.toNat_ofNat, Nat.mod_eq_of_lt (by omega)]

/-- Settles O32: below 254 by `execCall_legal`, whose store is PUSH's (`load_store_decSp`) and whose
target is read after the decrement (`readReg_decSp`); at 254 by `execCall_noRoom`. -/
theorem callResult : Obligations.CallResult := by
  unfold Obligations.CallResult
  refine ⟨fun ra => decode_encode_append (.call ra),
    fun s ra a ha => ⟨fun hpc hwf => ?_, fun hpc => ?_⟩, checksOneRegister_of_regOperands fun _ => rfl⟩
  · have hload : ((s.decSp.store s.decSp.sp (BitVec.ofNat 8 (s.pc.toNat + 2))).load
        (s.sp - 1#8)).toNat = s.pc.toNat + 2 := by
      rw [load_store_decSp hwf, returnByte_toNat hpc]
    have htarget : (zext9 (s.decSp.readReg a)).toNat =
        (if a = 7 then s.sp - 1#8 else s.readReg a).toNat := by
      rw [zext9_toNat, readReg_decSp]
    exact ⟨_, execCall_legal ha (by omega), decSp_sp s, sameRegsExcept_decSp s, hload,
      sameMemoryExcept_store_decSp hwf _, htarget, rfl, rfl, rfl, rfl, rfl⟩
  · exact (execCall_noRoom ha (by omega)).trans (by rw [hpc]; rfl)

/-- Settles O33: RET has no operand to check, and in every state it answers `execRet_legal`. -/
theorem retResult : Obligations.RetResult := by
  unfold Obligations.RetResult
  exact ⟨fun rest => decode_encode_append .ret rest, execRet_legal⟩

/-- Settles O37, from what CALL and RET do: RET takes the return address that CALL stored at the SP it
left, and its increment undoes the decrement. -/
theorem callThenReturnComesBack : Obligations.CallThenReturnComesBack := by
  unfold Obligations.CallThenReturnComesBack
  intro s ra a ha hwf hpc
  obtain ⟨-, hcall, -⟩ := callResult
  obtain ⟨t, ht, htsp, -, htload, -⟩ := (hcall s ra a ha).1 hpc hwf
  refine ⟨t, ht, fun u hsp hload => ⟨_, execRet_legal u, ?_, ?_⟩⟩
  · calc (zext9 (u.load (u.readReg 7))).toNat
      _ = (t.load (s.readReg 7 - 1#8)).toNat := by rw [zext9_toNat, hload, htsp]
      _ = s.pc.toNat + 2 := htload
  · calc (u.setPc (zext9 (u.load u.sp))).incSp.readReg 7
      _ = u.readReg 7 + 1#8 := incSp_sp _
      _ = s.readReg 7 := by rw [hsp, htsp, BitVec.sub_add_cancel]

end Sys2Proof.Machine
end

section
/-! PROOFS. The causes and what raising one writes (60_exceptions.md R226), and their priority (R228). -/

namespace Sys2Proof.Machine

/-! ## Raising a cause (R226) -/

/-- Settles O16: `raise` keeps all but the stop status (`sameButStatus_raise`), and STOPINFO's two fields
are the cause's KIND and VALUE (`raise_stopKind`, `raise_stopValue`); an opcode byte is zero-extended. -/
theorem raiseWritesOnlyStopStatus : Obligations.RaiseWritesOnlyStopStatus := by
  unfold Obligations.RaiseWritesOnlyStopStatus
  refine fun s => ⟨fun c => ⟨sameButStatus_raise s c, rfl⟩, fun op => ?_, fun k v => ?_⟩
  · have hvalue (c : Cause) (hc : c.value = zext9 op) : (s.raise c).stopValue.toNat = op.toNat := by
      rw [raise_stopValue, hc, zext9_toNat]
    exact ⟨rfl, raise_stopKind .., hvalue _ rfl, rfl, raise_stopKind .., hvalue _ rfl,
      rfl, raise_stopKind .., hvalue _ rfl⟩
  · refine ⟨rfl, raise_stopValue .., (raise_stopKind ..).trans ?_⟩
    cases k <;> rfl

/-! ## The first of a list of conditional causes -/

theorem causeIf_head? {p : Prop} [Decidable p] (c : Cause) :
    (causeIf p c).head? = if p then some c else none := by
  by_cases h : p <;> simp [causeIf, h]

theorem causeIf_append_head? {p : Prop} [Decidable p] (c : Cause) (later : List Cause) :
    (causeIf p c ++ later).head? = if p then some c else later.head? := by
  by_cases h : p <;> simp [causeIf, h]

/-! ## Items 1 to 3 of R228: the fetch and the opcode -/

/-- Every opcode of the two lists is an instruction's (R77). -/
theorem exists_opcode_of_listed {op : Byte} (h : op ∈ aluOpcodes ∨ op ∈ tableOpcodes) :
    ∃ i : Instr, i.opcode = op := by
  simp only [aluOpcodes, tableOpcodes, List.mem_cons, List.not_mem_nil, or_false] at h
  rcases h with (rfl | rfl | rfl | rfl | rfl) |
    (rfl | rfl | rfl | rfl | rfl | rfl | rfl | rfl | rfl | rfl)
  · exact ⟨.add 0 0, rfl⟩
  · exact ⟨.sub 0 0, rfl⟩
  · exact ⟨.mul 0 0, rfl⟩
  · exact ⟨.div 0 0, rfl⟩
  · exact ⟨.cmp 0 0, rfl⟩
  · exact ⟨.hlt, rfl⟩
  · exact ⟨.ldi 0 0, rfl⟩
  · exact ⟨.prn 0, rfl⟩
  · exact ⟨.push 0, rfl⟩
  · exact ⟨.pop 0, rfl⟩
  · exact ⟨.call 0, rfl⟩
  · exact ⟨.ret, rfl⟩
  · exact ⟨.jmp 0, rfl⟩
  · exact ⟨.jeq 0, rfl⟩
  · exact ⟨.jne 0, rfl⟩

theorem pc_add_ofNat (pc : PcWord) (k : Nat) :
    pc + BitVec.ofNat 9 k = BitVec.ofNat 9 (pc.toNat + k) := by
  rw [BitVec.ofNat_add, BitVec.ofNat_toNat, BitVec.setWidth_eq]

/-- An instruction that was fetched and decoded meets none of the conditions of items 1 to 3. -/
theorem fetchCauses_of_decoded {s : State} {i : Instr} {rest : List Byte}
    (hd : decode s.fetch = .ok (i, rest)) : fetchCauses s = [] := by
  obtain ⟨-, hfit, hop, -⟩ := fetch_decoded hd
  rw [← fieldN_opcode] at hfit
  simp only [fetchCauses, List.append_eq_nil_iff, causeIf_eq_nil, hop]
  have hlisted := opcode_listed i
  refine ⟨⟨⟨⟨by omega, by omega⟩, by omega⟩, fun ⟨hA, hout⟩ => ?_⟩, fun ⟨hA, hout⟩ => ?_⟩
  · rcases hlisted with ⟨-, hin⟩ | ⟨hA', -⟩
    · exact hout hin
    · omega
  · rcases hlisted with ⟨hA', -⟩ | ⟨-, hin⟩
    · omega
    · exact hout hin

/-- What a rejected fetch or opcode raises is the first of items 1 to 3 whose condition holds. -/
theorem fetchCauses_head?_of_rejected {s : State} {r : Reject} (hd : decode s.fetch = .error r) :
    (fetchCauses s).head? = some (rejectCause s.pc r) := by
  simp only [fetchCauses, List.append_assoc, causeIf_append_head?, causeIf_head?]
  rcases fetch_rejected hd with ⟨hpc, rfl⟩ | ⟨hpc, hmiss, rfl⟩ | ⟨hfit, hop, rfl⟩
  · exact if_pos (by omega)
  · rw [operandsFetched_eq_fieldN] at hmiss
    rw [if_neg (by omega), rejectCause, pc_add_ofNat]
    by_cases h1 : fieldN (s.mem.read s.pc.toNat) ≥ 1 ∧ s.pc.toNat + 1 > 255
    · rw [if_pos h1, show 256 - s.pc.toNat = 1 by omega]
    · rw [if_neg h1, if_pos (by omega), show 256 - s.pc.toNat = 2 by omega]
  · rw [operandsFetched_eq_fieldN] at hfit
    have hunlisted : ¬ (_ ∈ aluOpcodes ∨ _ ∈ tableOpcodes) :=
      fun h => (exists_opcode_of_listed h).elim hop
    rw [if_neg (by omega), if_neg (by omega), if_neg (by omega)]
    by_cases hA : fieldA (s.mem.read s.pc.toNat) = 1
    · rw [if_pos ⟨hA, fun h => hunlisted (.inl h)⟩, if_pos ((aluFlag_iff_fieldA _).2 hA), rejectCause]
    · have hA0 : fieldA (s.mem.read s.pc.toNat) = 0 := by rw [fieldA] at hA ⊢; omega
      rw [if_neg fun h => hA h.1, if_pos ⟨hA0, fun h => hunlisted (.inr h)⟩,
        if_neg (mt (aluFlag_iff_fieldA _).1 hA), rejectCause]

/-! ## Items 4 and 5 of R228: the instruction -/

theorem registerCauses_head? (i : Instr) :
    (registerCauses i).head? =
      (firstAboveSeven i.regOperands).map fun x => .outOfRangeAccess .registerIndex (zext9 x) := by
  simp only [registerCauses, List.head?_map, List.head?_filter]
  rfl

/-- The causes of a decoded instruction are those of items 4 and 5. -/
theorem applicableCauses_of_decoded {s : State} {i : Instr} {rest : List Byte}
    (hd : decode s.fetch = .ok (i, rest)) :
    applicableCauses s = registerCauses i ++ instrCauses s i := by
  simp only [applicableCauses, fetchCauses_of_decoded hd, opcodeInstr_of_decoded hd, List.nil_append]

/-- An instruction raises the first of its causes, or completes where it has none (R228, R232). -/
theorem exec_first_cause (i : Instr) (s : State) :
    (∃ c, (registerCauses i ++ instrCauses s i).head? = some c ∧ exec i s = .next (s.raise c)) ∨
    (registerCauses i ++ instrCauses s i = [] ∧ ∃ t, exec i s = .next t ∧ Completed i s t) := by
  cases hregs : firstAboveSeven i.regOperands with
  | some x =>
    refine .inl ⟨_, ?_, exec_registerFault hregs s⟩
    simp [List.head?_append, registerCauses_head?, hregs]
  | none =>
    have hw := wellFormed_of_firstAboveSeven hregs
    rw [registerCauses_eq_nil.2 hw, List.nil_append]
    rcases exec_wellFormed_cases s hw with hdone | ⟨c, hc, -, hraise⟩
    · exact .inr hdone
    · exact .inl ⟨c, by rw [hc, List.head?_cons], hraise⟩

/-! ## The priority of causes (R228) -/

/-- A running step raises the first cause that applies, or completes its instruction where none does. -/
theorem step_first_cause {s : State} (hr : s.running = true) :
    (∃ c, (applicableCauses s).head? = some c ∧ step s = .next (s.raise c)) ∨
    (applicableCauses s = [] ∧ ∃ i rest t,
      decode s.fetch = .ok (i, rest) ∧ step s = .next t ∧ Completed i s t) := by
  cases hd : decode s.fetch with
  | error r =>
    refine .inl ⟨_, ?_, step_of_rejected hr hd⟩
    rw [applicableCauses, List.head?_append, fetchCauses_head?_of_rejected hd, Option.some_or]
  | ok p =>
    obtain ⟨i, rest⟩ := p
    rw [applicableCauses_of_decoded hd, step_of_decoded hr hd]
    rcases exec_first_cause i s with hraise | ⟨hnone, t, ht, hdone⟩
    · exact .inl hraise
    · exact .inr ⟨hnone, i, rest, t, rfl, ht, hdone⟩

/-- Settles O17: `step_first_cause` gives both clauses, as its two cases say whether the list of causes is
empty; an instruction that completes keeps the stop status, but for HLT, which keeps STOPINFO. -/
theorem stepRaisesFirstApplicableCause : Obligations.StepRaisesFirstApplicableCause := by
  unfold Obligations.StepRaisesFirstApplicableCause
  intro s hr
  rcases step_first_cause hr with ⟨c, hfirst, hraise⟩ | ⟨hnone, i, rest, t, hd, ht, hdone⟩
  · refine ⟨fun c' later hc => ?_, fun hnil => by simp [hnil] at hfirst⟩
    obtain rfl : c' = c := by simpa [hc] using hfirst
    exact hraise
  · refine ⟨fun c later hc => by simp [hnone] at hc, fun _ => ⟨i, rest, t, hd, ht, ?_⟩⟩
    rcases hdone.status with ⟨rfl, rfl⟩ | ⟨hrun, hcause, hinfo⟩
    · exact ⟨rfl, fun hne => absurd rfl hne⟩
    · exact ⟨hinfo, fun _ => ⟨hrun.trans hr, hcause⟩⟩

end Sys2Proof.Machine
end

section
/-! PROOFS. The state CREATE gives for an image (70_reset_and_hazards.md R260, R261). -/

namespace Sys2Proof.Machine

/-! ## What CREATE answers (R260) -/

/-- An image that fits MEM gives the reset state with the image placed from address 0. -/
theorem create_of_fits {img : List Byte} (h : img.length ≤ 256) :
    State.create img = some { State.reset with mem := Memory.ofImage 0 img } :=
  if_pos h

/-- An image longer than MEM gives no machine. -/
theorem create_of_too_long {img : List Byte} (h : 256 < img.length) : State.create img = none :=
  if_neg (Nat.not_le_of_lt h)

/-! ## Memory with an image placed from address 0 (R261) -/

theorem read_ofImage_zero (img : List Byte) (k : Nat) :
    (Memory.ofImage 0 img).read k = (img[k]?).getD 0#8 := by
  rw [Memory.read_ofImage, if_pos k.zero_le, Nat.sub_zero]

theorem read_ofImage_zero_of_lt {img : List Byte} {k : Nat} (h : k < img.length) :
    (Memory.ofImage 0 img).read k = img[k] := by
  rw [read_ofImage_zero, List.getElem?_eq_getElem h, Option.getD_some]

theorem read_ofImage_zero_of_ge {img : List Byte} {k : Nat} (h : img.length ≤ k) :
    (Memory.ofImage 0 img).read k = 0#8 := by
  rw [read_ofImage_zero, List.getElem?_eq_none h, Option.getD_none]

/-- Settles O2: CREATE changes memory alone of the reset state, so every other row is that of
`resetStateValues`, and memory reads as the image does up to its length and as 0 beyond it. -/
theorem createPlacesImageInStartState : Obligations.CreatePlacesImageInStartState := by
  unfold Obligations.CreatePlacesImageInStartState
  refine fun img => ⟨fun hfits => ⟨_, create_of_fits hfits, ?_⟩, create_of_too_long⟩
  obtain ⟨hregs, hsp, hpc, hfl, hrunning, hcause, hinfo, hout, -⟩ := resetStateValues
  exact ⟨hregs, hsp, hpc, hfl, hrunning, hcause, hinfo, hout,
    fun _ => read_ofImage_zero_of_lt, fun _ => read_ofImage_zero_of_ge⟩

end Sys2Proof.Machine
end

section
/-! PROOFS. Decode and encode are inverse, and the decoder follows the opcode map (30_encoding.md R74 to
R79). -/

namespace Sys2Proof.Machine

/-! ## The round trips (R74, R79) -/

/-- Settles O7: `decode_encode_append`, whose key fact is that the opcode byte of an instruction asks for
exactly its operand bytes (`operandsFetched_opcode`). -/
theorem decodeEncodeRoundTrip : Obligations.DecodeEncodeRoundTrip := by
  unfold Obligations.DecodeEncodeRoundTrip
  exact decode_encode_append

/-- Settles O8: the bytes that decode are the opcode of the instruction, then as many bytes as it has
operands, which are its operands, then the bytes left (`decode_ok`). -/
theorem encodeDecodeRoundTrip : Obligations.EncodeDecodeRoundTrip := by
  unfold Obligations.EncodeDecodeRoundTrip
  intro bytes rest i h
  obtain ⟨tail, rfl, -, htake, rfl⟩ := decode_ok h
  rw [encode, List.cons_append, ← htake, List.take_append_drop]

/-- Settles O4: each word is the encoding of its instruction, with no byte after it
(`decode_encode_append`). -/
theorem decodeReadsSpecWords : Obligations.DecodeReadsSpecWords := by
  unfold Obligations.DecodeReadsSpecWords
  exact ⟨decode_encode_append .hlt [], decode_encode_append (.ldi 3#8 171#8) [],
    decode_encode_append (.prn 5#8) [], decode_encode_append (.push 2#8) [],
    decode_encode_append (.call 1#8) [], decode_encode_append .ret [],
    decode_encode_append (.jeq 200#8) [], decode_encode_append (.add 2#8 7#8) [],
    decode_encode_append (.cmp 6#8 1#8) []⟩

/-! ## The opcode map (R76 to R78) -/

theorem operands_length_le (i : Instr) : i.operands.length ≤ 2 := by
  rw [← operandsFetched_opcode]
  exact Nat.min_le_right _ _

/-- The first bytes of a list, at most two of them, are the first bytes of the pair the map reads. -/
theorem take_eq_take_pair {rest : List Byte} {n : Nat} (hn : n ≤ 2) (h : n ≤ rest.length) :
    rest.take n = [rest[0]?.getD 0#8, rest[1]?.getD 0#8].take n := by
  match rest, n, hn with
  | _, 0, _ => rfl
  | _ :: _, 1, _ => rfl
  | _ :: _ :: _, 2, _ => rfl
  | [], 1, _ | [], 2, _ | [_], 2, _ => simp at h

/-- The map is undefined on an opcode of no instruction (R78). -/
theorem opcodeInstr_eq_none {op : Byte} (hop : ∀ i : Instr, i.opcode ≠ op) (a b : Byte) :
    opcodeInstr op a b = none := by
  refine Option.eq_none_iff_forall_not_mem.2 fun i hi => ?_
  obtain ⟨hopcode, -⟩ := opcodeInstr_some hi
  exact hop i hopcode.symm

/-- The map is defined on the opcode of every instruction, whatever the operand bytes (R79). -/
theorem opcodeInstr_opcode_ne_none (i : Instr) (a b : Byte) : opcodeInstr i.opcode a b ≠ none := by
  cases i <;> exact Option.some_ne_none _

/-- Decoding an opcode whose operand bytes are there, by the opcode map. -/
theorem decode_eq_opcodeInstr {op : Byte} {rest : List Byte}
    (h : operandsFetched op ≤ rest.length) :
    decode (op :: rest) =
      match opcodeInstr op (rest[0]?.getD 0#8) (rest[1]?.getD 0#8) with
      | some i => .ok (i, rest.drop (operandsFetched op))
      | none => if fieldA op = 1 then .error (.unsupportedAluOperation op)
                else .error (.unknownInstruction op) := by
  rw [decode_of_enough h]
  rcases decodeOpcode_cases op (rest.take (operandsFetched op)) with ⟨i, hi, rfl, hops⟩ | herr
  · have hpair : i.operands = [rest[0]?.getD 0#8, rest[1]?.getD 0#8].take i.operands.length := by
      rw [operandsFetched_opcode] at h hops
      rw [← take_eq_take_pair (operands_length_le i) h, hops]
    rw [hi, opcodeInstr_of_operands hpair]
    rfl
  · have hop : ∀ i : Instr, i.opcode ≠ op := by
      rintro i rfl
      rw [operandsFetched_opcode] at h herr
      obtain ⟨j, hj⟩ := decodeOpcode_total i (List.length_take_of_le h)
      cases hj.symm.trans herr
    rw [herr, opcodeInstr_eq_none hop]
    by_cases hA : fieldA op = 1
    · rw [if_pos ((aluFlag_iff_fieldA op).2 hA)]; exact (if_pos hA).symm
    · rw [if_neg (mt (aluFlag_iff_fieldA op).1 hA)]; exact (if_neg hA).symm

theorem opcodeInstr_eq_none_iff (op a b : Byte) :
    opcodeInstr op a b = none ↔ op ∉ aluOpcodes ∧ op ∉ tableOpcodes := by
  refine ⟨fun hnone => not_or.1 fun hlisted => ?_, fun ⟨halu, htable⟩ => ?_⟩
  · obtain ⟨i, rfl⟩ := exists_opcode_of_listed hlisted
    exact opcodeInstr_opcode_ne_none i a b hnone
  · exact opcodeInstr_eq_none (opcode_ne_of_unlisted (fun _ => halu) fun _ => htable) a b

/-- Settles O6: the map agrees with the decoder (`decode_eq_opcodeInstr`), is undefined exactly off the
two lists (`opcodeInstr_eq_none_iff`), and the illegal opcodes are counted over the 256 bytes. -/
theorem decodeFollowsOpcodeMap : Obligations.DecodeFollowsOpcodeMap := by
  unfold Obligations.DecodeFollowsOpcodeMap
  refine ⟨fun op rest h => ?_, opcodeInstr_eq_none_iff, by decide +kernel, by decide +kernel⟩
  rw [← operandsFetched_eq_fieldN] at h ⊢
  exact decode_eq_opcodeInstr h

end Sys2Proof.Machine
end

section
/-! PROOFS. The step is the execution cycle of R100 (40_execution_cycle.md), and when it completes
(60_exceptions.md R232). -/

namespace Sys2Proof.Machine

/-! ## When a step exists, and what it runs (R100 to R103) -/

/-- Settles O9: `step_of_decoded`. -/
theorem stepRunsDecodedInstruction : Obligations.StepRunsDecodedInstruction := by
  unfold Obligations.StepRunsDecodedInstruction
  exact fun s i rest => step_of_decoded

theorem step_of_stopped {s : State} (hr : s.running = false) : step s = .fault .stopped := by
  rw [step, hr]
  rfl

/-- Settles O12: a running state's step answers (`step_next_of_running`), a stopped one's is the fault of
`step_of_stopped`, and neither is a refusal. -/
theorem stepExistsExactlyWhileRunning : Obligations.StepExistsExactlyWhileRunning := by
  unfold Obligations.StepExistsExactlyWhileRunning
  refine fun s => ⟨⟨fun ⟨t, ht⟩ => (step_cases ht).1, step_next_of_running⟩, step_of_stopped,
    fun m hm => ?_⟩
  cases hr : s.running with
  | true =>
    obtain ⟨t, ht⟩ := step_next_of_running hr
    cases ht.symm.trans hm
  | false => cases (step_of_stopped hr).symm.trans hm

/-- Bytes that lie in memory from PC upward, and ask for no more than themselves, are what is fetched. -/
theorem fetch_eq_encode {s : State} {i : Instr} (hfit : s.pc.toNat + (encode i).length ≤ 256)
    (hmem : ∀ (k : Nat) (h : k < (encode i).length), s.mem.read (s.pc.toNat + k) = (encode i)[k]) :
    s.fetch = encode i := by
  have hlen : (encode i).length = i.operands.length + 1 := rfl
  have hop : s.mem.read s.pc.toNat = i.opcode := hmem 0 (by omega)
  rw [fetch_of_lt (by omega), hop, operandsFetched_opcode, fetchFrom_full _ (by omega), encode]
  congr 1
  refine List.ext_getElem (by simp) fun k hk hk' => ?_
  have hread := hmem (k + 1) (by omega)
  rw [← Nat.add_assoc, Nat.add_right_comm] at hread
  simpa [encode] using hread

/-- Settles O10: what is fetched is the encoding of `i` (`fetch_eq_encode`), which decodes to `i`. -/
theorem stepRunsBytesInMemory : Obligations.StepRunsBytesInMemory := by
  unfold Obligations.StepRunsBytesInMemory
  intro s i hr hfit hmem
  have hdecode := decode_encode_append i []
  rw [List.append_nil, ← fetch_eq_encode hfit hmem] at hdecode
  exact step_of_decoded hr hdecode

/-! ## The cycle, by what the fetch decodes to (R100) -/

theorem cycleStep_of_stopped {s : State} (hr : s.running = false) :
    cycleStep s = .fault .stopped :=
  if_pos hr

/-- A decoded instruction passes the checks of the cycle and is the map's entry for its bytes. -/
theorem cycleStep_of_decoded {s : State} {i : Instr} {rest : List Byte} (hr : s.running = true)
    (hd : decode s.fetch = .ok (i, rest)) : cycleStep s = exec i s := by
  obtain ⟨-, hfit, hop, -⟩ := fetch_decoded hd
  have hN : fieldN (s.mem.read s.pc.toNat) = i.operands.length := by rw [hop, fieldN_opcode]
  simp only [cycleStep, opcodeInstr_of_decoded hd]
  rw [if_neg (by simp [hr]), if_neg (by omega), if_neg (by omega), if_neg (by omega)]

/-- A rejected fetch or opcode raises in the cycle what it raises in the step. -/
theorem cycleStep_of_rejected {s : State} {r : Reject} (hr : s.running = true)
    (hd : decode s.fetch = .error r) : cycleStep s = .next (s.raise (rejectCause s.pc r)) := by
  have hrun : ¬ s.running = false := by simp [hr]
  simp only [cycleStep]
  rcases fetch_rejected hd with ⟨hpc, rfl⟩ | ⟨hpc, hmiss, rfl⟩ | ⟨hfit, hop, rfl⟩
  · rw [if_neg hrun, if_pos (by omega), rejectCause]
  · rw [operandsFetched_eq_fieldN] at hmiss
    rw [if_neg hrun, if_neg (by omega), rejectCause, pc_add_ofNat]
    by_cases h1 : fieldN (s.mem.read s.pc.toNat) ≥ 1 ∧ s.pc.toNat + 1 > 255
    · rw [if_pos h1, show 256 - s.pc.toNat = 1 by omega]
    · rw [if_neg h1, if_pos (by omega), show 256 - s.pc.toNat = 2 by omega]
  · rw [operandsFetched_eq_fieldN] at hfit
    rw [if_neg hrun, if_neg (by omega), if_neg (by omega), if_neg (by omega),
      opcodeInstr_eq_none hop]
    by_cases hA : fieldA (s.mem.read s.pc.toNat) = 1
    · rw [if_pos ((aluFlag_iff_fieldA _).2 hA)]; exact if_pos hA
    · rw [if_neg (mt (aluFlag_iff_fieldA _).1 hA)]; exact if_neg hA

/-- Settles O11: a stopped state has no step, and in a running one the step and the cycle agree on every
fetch, decoded (`cycleStep_of_decoded`) or rejected (`cycleStep_of_rejected`). -/
theorem stepIsTheExecutionCycle : Obligations.StepIsTheExecutionCycle := by
  unfold Obligations.StepIsTheExecutionCycle
  intro s
  cases hr : s.running with
  | false => rw [step_of_stopped hr, cycleStep_of_stopped hr]
  | true =>
    cases hd : decode s.fetch with
    | ok p => rw [step_of_decoded hr hd, cycleStep_of_decoded hr hd]
    | error r => rw [step_of_rejected hr hd, cycleStep_of_rejected hr hd]

/-! ## The operand fetch above memory (R105) -/

/-- Settles O14: the fetch is rejected for a missing operand byte (`fetch_rejected`), and the first
address that has none is 256. -/
theorem operandFetchAboveMemoryRaises : Obligations.OperandFetchAboveMemoryRaises := by
  unfold Obligations.OperandFetchAboveMemoryRaises
  rintro s op hr rfl hshort
  have hmiss : s.pc.toNat < 256 ∧ 256 ≤ s.pc.toNat + operandsFetched (s.mem.read s.pc.toNat) := by
    rw [operandsFetched_eq_fieldN, fieldN]
    omega
  have hd : decode s.fetch = .error (.missingOperand (256 - s.pc.toNat)) := by
    cases hd : decode s.fetch with
    | ok p =>
      obtain ⟨-, hfit, hop, -⟩ := fetch_decoded hd
      rw [hop, operandsFetched_opcode] at hmiss
      omega
    | error r =>
      rcases fetch_rejected hd with ⟨hpc, -⟩ | ⟨-, -, rfl⟩ | ⟨hfit, -⟩
      · omega
      · rfl
      · omega
  have haddr : s.pc + BitVec.ofNat 9 (256 - s.pc.toNat) = 256#9 := by
    rw [pc_add_ofNat, Nat.add_sub_cancel' (by omega)]
  rw [step_of_rejected hr hd, rejectCause, haddr]
  rfl

/-! ## Legal instructions (R232) -/

/-- An instruction's own cause is CALL's return address or DIV's divisor 0 (R190, R133). -/
theorem instrCauses_eq_nil {i : Instr} {s : State} (hcall : ∀ ra, i = .call ra → s.pc.toNat ≤ 253)
    (hdiv : ∀ ra rb (b : RegIndex), i = .div ra rb → rb.toNat = b.val → s.readReg b ≠ 0#8) :
    instrCauses s i = [] := by
  cases i with
  | call ra =>
    have hpc := hcall ra rfl
    exact causeIf_neg _ (by omega)
  | div ra rb => exact causeIf_neg _ fun ⟨b, hb, hzero⟩ => hdiv ra rb b rfl hb.symm hzero
  | _ => rfl

/-- Settles O19: without a cause of its own (`instrCauses_eq_nil`) an instruction with legal operands
completes (`exec_wellFormed_cases`), and one that completes keeps the stop status, but for HLT. -/
theorem legalInstructionCompletes : Obligations.LegalInstructionCompletes := by
  unfold Obligations.LegalInstructionCompletes
  intro i s hw hcall hdiv
  rcases exec_wellFormed_cases s hw with ⟨-, t, ht, hdone⟩ | ⟨c, hc, -⟩
  · refine ⟨t, ht, ?_⟩
    rcases hdone.status with ⟨rfl, rfl⟩ | ⟨hrun, hcause, hinfo⟩
    · exact ⟨rfl, fun _ => ⟨rfl, rfl⟩, fun hne => absurd rfl hne⟩
    · refine ⟨hinfo, ?_, fun _ => ⟨hrun, hcause⟩⟩
      rintro rfl
      cases ht
      exact ⟨rfl, rfl⟩
  · simp [instrCauses_eq_nil hcall hdiv] at hc

end Sys2Proof.Machine
end

section
/-! PROOFS. What every instruction leaves unchanged (10_state.md R22, 20_memory.md R54, 42_dispatch_data.md
R163, 60_exceptions.md R226). -/

namespace Sys2Proof.Machine

/-! ## The frame of every instruction -/

/-- The registers an instruction may write: the one its operand names, and SP where it uses the stack. -/
def mayWrite : Instr → RegIndex → Prop
  | .ldi ra _, r | .add ra _, r | .sub ra _, r | .mul ra _, r | .div ra _, r => r.val = ra.toNat
  | .pop ra, r => r.val = ra.toNat ∨ r = 7
  | .push _, r | .call _, r | .ret, r => r = 7
  | .hlt, _ | .prn _, _ | .jmp _, _ | .jeq _, _ | .jne _, _ | .cmp _ _, _ => False

/-- What an instruction leaves unchanged, completed or raised: registers it may not write, the event
stream but for PRN, memory but for PUSH and CALL, which write one byte at the decremented SP. -/
structure Frame (i : Instr) (s t : State) : Prop where
  regs : ∀ r, ¬ mayWrite i r → t.readReg r = s.readReg r
  out : (∀ ra, i ≠ .prn ra) → t.out = s.out
  mem : (∀ ra, i ≠ .push ra ∧ i ≠ .call ra) → t.mem = s.mem
  stored : t.mem = s.mem ∨ ∃ v, t.mem = s.mem.write (s.sp - 1#8).toNat v

theorem frame_raise (i : Instr) (s : State) (c : Cause) : Frame i s (s.raise c) :=
  ⟨fun _ _ => rfl, fun _ => rfl, fun _ => rfl, .inl rfl⟩

/-- One register written, and PC. -/
theorem frame_writeReg {i : Instr} {s : State} {a : RegIndex} {v : Byte} {n : Nat}
    (ha : mayWrite i a) : Frame i s ((s.writeReg a v).advancePc n) := by
  refine ⟨fun r hr => ?_, fun _ => rfl, fun _ => rfl, .inl rfl⟩
  have hne : r ≠ a := by rintro rfl; exact hr ha
  exact readReg_writeReg_other s hne v

/-- A byte stored at the decremented SP, and PC. -/
theorem frame_store {i : Instr} (h7 : ∀ r, r = 7 → mayWrite i r)
    (hi : ∃ ra, i = .push ra ∨ i = .call ra) (s : State) (v : Byte) (pc : PcWord) :
    Frame i s ((s.decSp.store s.decSp.sp v).setPc pc) := by
  obtain ⟨ra, hi⟩ := hi
  refine ⟨fun r hr => ?_, fun _ => rfl, fun hne => ?_, .inr ⟨v, by simp⟩⟩
  · exact (readReg_decSp s r).trans (if_neg fun h => hr (h7 r h))
  · exact absurd hi (not_or.2 (hne ra))

/-- PC written alone. -/
theorem frame_setPc (i : Instr) (s : State) (pc : PcWord) : Frame i s (s.setPc pc) :=
  ⟨fun _ _ => rfl, fun _ => rfl, fun _ => rfl, .inl rfl⟩

theorem exec_frame {i : Instr} {s t : State} (h : exec i s = .next t) : Frame i s t := by
  cases i with
  | hlt => cases h; exact ⟨fun _ _ => rfl, fun _ => rfl, fun _ => rfl, .inl rfl⟩
  | ret =>
    cases h
    exact ⟨fun r hr => (readReg_incSp _ r).trans (if_neg hr), fun _ => rfl, fun _ => rfl, .inl rfl⟩
  | ldi ra imm =>
    obtain ⟨a, ha, rfl⟩ | ⟨-, rfl⟩ := execLdi_next h
    · exact frame_writeReg ha.symm
    · exact frame_raise _ s _
  | prn ra =>
    obtain ⟨a, -, rfl⟩ | ⟨-, rfl⟩ := execPrn_next h
    · exact ⟨fun _ _ => rfl, fun hne => absurd rfl (hne ra), fun _ => rfl, .inl rfl⟩
    · exact frame_raise _ s _
  | push ra =>
    obtain ⟨a, -, rfl⟩ | ⟨-, rfl⟩ := execPush_next h
    · exact frame_store (fun _ => id) ⟨ra, .inl rfl⟩ s _ _
    · exact frame_raise _ s _
  | call ra =>
    obtain ⟨a, -, -, rfl⟩ | ⟨a, -, -, rfl⟩ | ⟨-, rfl⟩ := execCall_next h
    · exact frame_store (fun _ => id) ⟨ra, .inr rfl⟩ s _ _
    · exact frame_raise _ s _
    · exact frame_raise _ s _
  | pop ra =>
    obtain ⟨a, ha, rfl⟩ | ⟨-, rfl⟩ := execPop_next h
    · refine ⟨fun r hr => (readReg_incSp_writeReg s a r _).trans ?_, fun _ => rfl, fun _ => rfl, .inl rfl⟩
      obtain ⟨hra, hr7⟩ := not_or.1 hr
      have hne : r ≠ a := by rintro rfl; exact hra ha.symm
      rw [if_neg hr7, if_neg hne]
    · exact frame_raise _ s _
  | jmp ra =>
    obtain ⟨a, -, rfl⟩ | ⟨-, rfl⟩ := execJmp_next h
    · exact frame_setPc _ s _
    · exact frame_raise _ s _
  | jeq ra =>
    obtain ⟨a, -, rfl⟩ | ⟨-, rfl⟩ := execJeq_next h
    · exact frame_setPc _ s _
    · exact frame_raise _ s _
  | jne ra =>
    obtain ⟨a, -, rfl⟩ | ⟨-, rfl⟩ := execJne_next h
    · exact frame_setPc _ s _
    · exact frame_raise _ s _
  | add ra rb =>
    obtain ⟨a, b, ha, -, rfl⟩ | ⟨-, rfl⟩ | ⟨-, -, rfl⟩ := execAdd_next h
    · exact frame_writeReg ha.symm
    · exact frame_raise _ s _
    · exact frame_raise _ s _
  | sub ra rb =>
    obtain ⟨a, b, ha, -, rfl⟩ | ⟨-, rfl⟩ | ⟨-, -, rfl⟩ := execSub_next h
    · exact frame_writeReg ha.symm
    · exact frame_raise _ s _
    · exact frame_raise _ s _
  | mul ra rb =>
    obtain ⟨a, b, ha, -, rfl⟩ | ⟨-, rfl⟩ | ⟨-, -, rfl⟩ := execMul_next h
    · exact frame_writeReg ha.symm
    · exact frame_raise _ s _
    · exact frame_raise _ s _
  | div ra rb =>
    obtain ⟨a, b, ha, -, -, rfl⟩ | ⟨a, b, -, -, -, rfl⟩ | ⟨-, rfl⟩ | ⟨-, -, rfl⟩ := execDiv_next h
    · exact frame_writeReg ha.symm
    · exact frame_raise _ s _
    · exact frame_raise _ s _
    · exact frame_raise _ s _
  | cmp ra rb =>
    obtain ⟨a, b, -, -, rfl⟩ | ⟨-, rfl⟩ | ⟨-, -, rfl⟩ := execCmp_next h
    · exact ⟨fun _ _ => rfl, fun _ => rfl, fun _ => rfl, .inl rfl⟩
    · exact frame_raise _ s _
    · exact frame_raise _ s _

theorem Frame.sameMemory {i : Instr} {s t : State} (h : Frame i s t)
    (hi : ∀ ra, i ≠ .push ra ∧ i ≠ .call ra) : SameMemory s t :=
  fun addr => by rw [h.mem hi]

/-- From a canonical memory, the byte at the decremented SP is the only one that may change (R54). -/
theorem Frame.sameMemoryExcept {i : Instr} {s t : State} (h : Frame i s t) (hwf : s.mem.wf) :
    SameMemoryExcept s t (s.sp - 1#8) := by
  intro addr hne
  rcases h.stored with hmem | ⟨v, hmem⟩
  · rw [hmem]
  · rw [hmem, Memory.read_write hwf, if_neg hne]

/-! ## The stop status (R226) -/

/-- The causes of items 4 and 5 of R228 have code 4, but for DIV's, which has code 5 (R220). -/
theorem code_of_mem_causes {i : Instr} {s : State} {c : Cause}
    (h : c ∈ registerCauses i ++ instrCauses s i) :
    c.code = 4#3 ∨ c.code = 5#3 ∧ ∃ ra rb, i = .div ra rb := by
  rcases List.mem_append.1 h with hreg | hinstr
  · obtain ⟨x, -, rfl⟩ := List.mem_map.1 hreg
    exact .inl rfl
  · cases i with
    | call ra =>
      simp only [instrCauses, causeIf, List.mem_ite_nil_right, List.mem_singleton] at hinstr
      obtain ⟨-, rfl⟩ := hinstr
      exact .inl rfl
    | div ra rb =>
      simp only [instrCauses, causeIf, List.mem_ite_nil_right, List.mem_singleton] at hinstr
      obtain ⟨-, rfl⟩ := hinstr
      exact .inr ⟨rfl, ra, rb, rfl⟩
    | _ => simp [instrCauses] at hinstr

/-- An instruction other than HLT keeps the stop status, or raises: STOPCAUSE is 4, or 5 by DIV. -/
theorem exec_status_code {i : Instr} {s t : State} (hi : i ≠ .hlt) (h : exec i s = .next t) :
    SameStatus s t ∨
    (t.stopCause = 4#3 ∨ t.stopCause = 5#3 ∧ ∃ ra rb, i = .div ra rb) ∧ SameButStatus s t := by
  rcases exec_first_cause i s with ⟨c, hc, hraise⟩ | ⟨-, u, hu, hdone⟩
  · obtain rfl : t = s.raise c := Host.Outcome.next.inj (h.symm.trans hraise)
    exact .inr ⟨code_of_mem_causes (List.mem_of_head? hc), sameButStatus_raise s c⟩
  · obtain rfl : t = u := Host.Outcome.next.inj (h.symm.trans hu)
    exact .inl (hdone.status.resolve_left fun hhlt => hi hhlt.1)

/-- An instruction other than HLT and DIV keeps the stop status, or raises with STOPCAUSE 4. -/
theorem exec_status_code_four {i : Instr} {s t : State} (hi : i ≠ .hlt)
    (hdiv : ∀ ra rb, i ≠ .div ra rb) (h : exec i s = .next t) :
    SameStatus s t ∨ (t.stopCause = 4#3 ∧ SameButStatus s t) :=
  (exec_status_code hi h).imp_right fun ⟨hcode, hsame⟩ =>
    ⟨hcode.resolve_right fun ⟨_, ra, rb, hi⟩ => hdiv ra rb hi, hsame⟩

/-! ## The frames by groups of instructions -/

/-- Settles O41: each of the four may write R[a] alone (`exec_frame`) and raises with STOPCAUSE 4 or 5
(`exec_status_code`). -/
theorem arithmeticFrame : Obligations.ArithmeticFrame := by
  unfold Obligations.ArithmeticFrame
  intro s t ra rb i hi h
  have hframe := exec_frame h
  simp only [List.mem_cons, List.not_mem_nil, or_false] at hi
  have hregs : ∀ r : RegIndex, mayWrite i r → r.val = ra.toNat := by
    rcases hi with rfl | rfl | rfl | rfl <;> exact fun _ => id
  refine ⟨fun r hr => hframe.regs r (mt (hregs r) hr), exec_keeps_fl ?_ h, hframe.out ?_,
    hframe.sameMemory ?_, (exec_status_code ?_ h).imp_right fun ⟨hcode, hsame⟩ =>
      ⟨hcode.imp_right fun h5 => h5.1, hsame⟩⟩
  all_goals rcases hi with rfl | rfl | rfl | rfl <;> simp

/-- Settles O42: none of the six may write a register or store (`exec_frame`); the stop status changes by
HLT, or with STOPCAUSE 4 (`exec_status_code_four`). -/
theorem noRegisterWrittenFrame : Obligations.NoRegisterWrittenFrame := by
  unfold Obligations.NoRegisterWrittenFrame
  intro s t ra rb i hi h
  have hframe := exec_frame h
  simp only [List.mem_cons, List.not_mem_nil, or_false] at hi
  have hregs : ∀ r, ¬ mayWrite i r := by
    rcases hi with rfl | rfl | rfl | rfl | rfl | rfl <;> exact fun _ => id
  have hmem : ∀ ra, i ≠ .push ra ∧ i ≠ .call ra := by
    rcases hi with rfl | rfl | rfl | rfl | rfl | rfl <;> simp
  have hdiv : ∀ ra rb, i ≠ .div ra rb := by
    rcases hi with rfl | rfl | rfl | rfl | rfl | rfl <;> simp
  refine ⟨regs_eq_of_readReg fun r => hframe.regs r (hregs r), hframe.sameMemory hmem,
    fun hcmp => exec_keeps_fl ?_ h, fun hprn => hframe.out ?_,
    fun hhlt => exec_status_code_four hhlt hdiv h, ?_⟩
  · rcases hi with rfl | rfl | rfl | rfl | rfl | rfl <;> simp at hcmp ⊢
  · rcases hi with rfl | rfl | rfl | rfl | rfl | rfl <;> simp at hprn ⊢
  · rintro rfl
    cases h
    rfl

/-- Settles O43: LDI may write R[a], RET SP, and POP both; none of them stores (`exec_frame`). -/
theorem loadingFrame : Obligations.LoadingFrame := by
  unfold Obligations.LoadingFrame
  intro s t ra imm i hi h
  have hframe := exec_frame h
  simp only [List.mem_cons, List.not_mem_nil, or_false] at hi
  refine ⟨fun r hra hr7 => hframe.regs r ?_, exec_keeps_fl ?_ h, hframe.out ?_, hframe.sameMemory ?_,
    exec_status_code_four ?_ ?_ h⟩
  · rcases hi with rfl | rfl | rfl
    · exact hra (by simp)
    · exact not_or.2 ⟨hra (by simp), hr7 (by simp)⟩
    · exact hr7 (by simp)
  all_goals rcases hi with rfl | rfl | rfl <;> simp

/-- Settles O44: PUSH and CALL may write SP alone, and the one byte at the decremented SP
(`Frame.sameMemoryExcept`). -/
theorem stackStoreFrame : Obligations.StackStoreFrame := by
  unfold Obligations.StackStoreFrame
  intro s t ra i hi hwf h
  have hframe := exec_frame h
  simp only [List.mem_cons, List.not_mem_nil, or_false] at hi
  have hregs : ∀ r : RegIndex, mayWrite i r → r ∈ [(7 : RegIndex)] := by
    rcases hi with rfl | rfl <;> exact fun _ => List.mem_singleton.2
  refine ⟨fun r hr => hframe.regs r (mt (hregs r) hr), ?_, exec_keeps_fl ?_ h, hframe.out ?_,
    exec_status_code_four ?_ ?_ h⟩
  · rw [decSp_sp]
    exact hframe.sameMemoryExcept hwf
  all_goals rcases hi with rfl | rfl <;> simp

/-! ## Whole-machine rules (R54, R163) -/

/-- Settles O46: a byte that differs is the one at the decremented SP (`Frame.sameMemoryExcept`), and an
instruction other than PUSH and CALL changes none (`Frame.sameMemory`); a raise changes none. -/
theorem onlyPushAndCallStore : Obligations.OnlyPushAndCallStore := by
  unfold Obligations.OnlyPushAndCallStore
  intro s t addr hwf hstep hdiff
  obtain ⟨-, ⟨i, hd, he⟩ | ⟨r, -, rfl⟩⟩ := step_cases hstep
  · have hframe := exec_frame he
    refine ⟨Classical.byContradiction fun hne => hdiff (hframe.sameMemoryExcept hwf addr hne),
      Classical.byContradiction fun hother => ?_⟩
    have hi : ∀ ra, i ≠ .push ra ∧ i ≠ .call ra := fun ra =>
      ⟨fun h => hother ⟨ra, [], .inl (h ▸ hd)⟩, fun h => hother ⟨ra, [], .inr (h ▸ hd)⟩⟩
    exact hdiff (hframe.sameMemory hi addr)
  · exact absurd rfl hdiff

/-- Settles O47: PRN emits R[a] or raises (`execPrn_next`); every other instruction keeps the event
stream (`exec_frame`), and so does a rejected fetch. -/
theorem onlyPrnEmits : Obligations.OnlyPrnEmits := by
  unfold Obligations.OnlyPrnEmits
  intro s t hstep
  obtain ⟨-, ⟨i, hd, he⟩ | ⟨r, -, rfl⟩⟩ := step_cases hstep
  · by_cases hprn : ∃ ra, i = .prn ra
    · obtain ⟨ra, rfl⟩ := hprn
      obtain ⟨a, ha, rfl⟩ | ⟨-, rfl⟩ := execPrn_next he
      · exact .inr ⟨ra, a, [], hd, ha, rfl⟩
      · exact .inl rfl
    · exact .inl ((exec_frame he).out (not_exists.1 hprn))
  · exact .inl rfl

end Sys2Proof.Machine
end

section
/-! PROOFS. No step reads the event stream (42_dispatch_data.md R163). -/

namespace Sys2Proof.Machine

/-- The state with its event stream replaced by a function of it. -/
def State.mapOut (f : List Byte → List Byte) (s : State) : State := { s with out := f s.out }

/-- The next state of an outcome with its event stream replaced. -/
def mapOutNext (f : List Byte → List Byte) : StepOutcome → StepOutcome
  | .next t => .next (t.mapOut f)
  | .fault r => .fault r
  | .refused r => .refused r

section
variable {f : List Byte → List Byte} {s : State}

theorem conclude_mapOut {r r' : Except Cause State} (op : Byte)
    (h : r' = r.map (State.mapOut f)) :
    conclude op (s.mapOut f) r' = mapOutNext f (conclude op s r) := by
  subst h
  cases r with
  | ok t =>
    simp only [Except.map, conclude_ok, autoAdvance_eq, mapOutNext]
    rfl
  | error c => rfl

theorem withReg_mapOut {rule rule' : RegIndex → Except Cause State}
    (h : ∀ a, rule' a = (rule a).map (State.mapOut f)) (ra : Byte) :
    withReg ra rule' = (withReg ra rule).map (State.mapOut f) := by
  unfold withReg
  cases checkreg ra with
  | ok a => exact h a
  | error c => rfl

theorem withRegs_mapOut {rule rule' : RegIndex → RegIndex → Except Cause State}
    (h : ∀ a b, rule' a b = (rule a b).map (State.mapOut f)) (ra rb : Byte) :
    withRegs ra rb rule' = (withRegs ra rb rule).map (State.mapOut f) :=
  withReg_mapOut (fun a => withReg_mapOut (h a) rb) ra

/-- No instruction reads the event stream: with the stream replaced, it answers the same state with
the stream replaced, where the replacement keeps an event that is added at the end. -/
theorem exec_mapOut (hf : ∀ v, f (s.out ++ [v]) = f s.out ++ [v]) (i : Instr) :
    exec i (s.mapOut f) = mapOutNext f (exec i s) := by
  cases i with
  | hlt => exact conclude_mapOut (s := s) (r := .ok s.halt) _ rfl
  | ret => exact conclude_mapOut (s := s) (r := .ok (s.setPc (zext9 (s.load s.sp))).incSp) _ rfl
  | prn ra =>
    refine conclude_mapOut _ (withReg_mapOut (fun a => ?_) ra)
    simp [Except.map, State.emit, State.mapOut, State.readReg, hf]
  | ldi ra imm =>
    refine conclude_mapOut _ (withReg_mapOut (fun a => ?_) ra)
    rfl
  | push ra | pop ra | jmp ra =>
    refine conclude_mapOut _ (withReg_mapOut (fun a => ?_) ra)
    rfl
  | call ra =>
    refine conclude_mapOut _ (withReg_mapOut (fun a => ?_) ra)
    rw [apply_ite (Except.map _)]
    rfl
  | jeq ra | jne ra =>
    refine conclude_mapOut _ (withReg_mapOut (fun a => congrArg Except.ok ?_) ra)
    rw [apply_ite (State.mapOut f)]
    rfl
  | add ra rb | sub ra rb | mul ra rb | cmp ra rb =>
    refine conclude_mapOut _ (withRegs_mapOut (fun a b => ?_) ra rb)
    rfl
  | div ra rb =>
    refine conclude_mapOut _ (withRegs_mapOut (fun a b => ?_) ra rb)
    rw [apply_ite (Except.map _)]
    rfl

theorem step_mapOut (hf : ∀ v, f (s.out ++ [v]) = f s.out ++ [v]) :
    step (s.mapOut f) = mapOutNext f (step s) := by
  cases hr : s.running with
  | false => rw [step_of_stopped hr]; exact step_of_stopped hr
  | true =>
    cases hd : decode s.fetch with
    | ok p => rw [step_of_decoded hr hd, ← exec_mapOut hf]; exact step_of_decoded hr hd
    | error r => rw [step_of_rejected hr hd]; exact step_of_rejected hr hd

end

/-- Settles O48: `step_mapOut`, for the replacement that puts `before` in the place of the events before
the step and keeps what the step adds. -/
theorem emittedEventsDoNotAffectStep : Obligations.EmittedEventsDoNotAffectStep := by
  unfold Obligations.EmittedEventsDoNotAffectStep
  intro s t before hstep
  have hstart : s.mapOut (fun o => before ++ o.drop s.out.length) = { s with out := before } := by
    simp [State.mapOut]
  rw [← hstart, step_mapOut (by simp), hstep]
  rfl

end Sys2Proof.Machine
end

section
/-! PROOFS. Where control goes (43_dispatch_control.md R195, 40_execution_cycle.md R111, R115), and the
fetch of a byte just stored (20_memory.md R64). -/

namespace Sys2Proof.Machine

/-! ## The targets of control transfer (R111, R195) -/

theorem zext9_toNat_le (v : Byte) : (zext9 v).toNat ≤ 255 := by
  rw [zext9_toNat]
  exact Nat.le_of_lt_succ v.isLt

/-- Settles O40: every target is a byte (`zext9_toNat_le`); JEQ and JNE not taken advance by 2 without a
wrap, because both bytes were fetched from addresses of MEM; a raise leaves Running = 0. -/
theorem pcSetterTargetsAreBytes : Obligations.PcSetterTargetsAreBytes := by
  unfold Obligations.PcSetterTargetsAreBytes
  intro s t i rest hr hd hP hstep htrun
  rw [step_of_decoded hr hd] at hstep
  obtain ⟨-, hfit, -⟩ := fetch_decoded hd
  cases i with
  | hlt | ldi | prn | push | pop | add | sub | mul | div | cmp =>
    rw [Instr.opcode] at hP
    exact absurd hP (by decide)
  | call ra =>
    refine ⟨fun hnot => absurd hnot (not_jumpNotTaken_call s ra), fun _ => ?_⟩
    obtain ⟨a, -, -, rfl⟩ | ⟨a, -, -, rfl⟩ | ⟨-, rfl⟩ := execCall_next hstep
    · exact zext9_toNat_le _
    · cases htrun
    · cases htrun
  | ret =>
    refine ⟨fun hnot => absurd hnot (not_jumpNotTaken_ret s), fun _ => ?_⟩
    cases hstep
    exact zext9_toNat_le _
  | jmp ra =>
    refine ⟨fun hnot => absurd hnot (not_jumpNotTaken_jmp s ra), fun _ => ?_⟩
    obtain ⟨a, -, rfl⟩ | ⟨-, rfl⟩ := execJmp_next hstep
    · exact zext9_toNat_le _
    · cases htrun
  | jeq ra =>
    have hnext : (s.pc + 2#9).toNat = s.pc.toNat + 2 := advance_toNat hfit
    rw [jumpNotTaken_jeq]
    obtain ⟨a, -, rfl⟩ | ⟨-, rfl⟩ := execJeq_next hstep
    · rw [setPc_pc]
      refine ⟨fun heven => ?_, fun hodd => ?_⟩
      · rw [flagE_of_even heven]; exact hnext
      · rw [flagE_of_odd (by omega)]; exact zext9_toNat_le _
    · cases htrun
  | jne ra =>
    have hnext : (s.pc + 2#9).toNat = s.pc.toNat + 2 := advance_toNat hfit
    rw [jumpNotTaken_jne]
    obtain ⟨a, -, rfl⟩ | ⟨-, rfl⟩ := execJne_next hstep
    · rw [setPc_pc]
      refine ⟨fun hodd => ?_, fun heven => ?_⟩
      · rw [flagE_of_odd hodd]; exact hnext
      · rw [flagE_of_even (by omega)]; exact zext9_toNat_le _
    · cases htrun

/-! ## A jump to itself (R115) -/

/-- A state whose step answers itself is the answer of any number of steps. -/
theorem run_of_step_self {M : Host.Core} {s : M.State} (h : M.step s = .next s) (k : Nat) :
    M.run k s = .next s := by
  induction k with
  | zero => rfl
  | succ k ih => rw [Host.Core.run, h]; exact ih

/-- Settles O51: JMP writes PC alone, here with the value it has, so the step answers the same state
(`run_of_step_self`). -/
theorem selfJumpRunsForever : Obligations.SelfJumpRunsForever := by
  unfold Obligations.SelfJumpRunsForever
  intro s ra a rest hr hd ha hself
  have hpc : zext9 (s.readReg a) = s.pc := BitVec.eq_of_toNat_eq ((zext9_toNat _).trans hself)
  refine run_of_step_self (M := Sys2Proof.core) ?_
  calc step s
    _ = .next (s.setPc (zext9 (s.readReg a))) := (step_of_decoded hr hd).trans (execJmp_legal ha)
    _ = .next s := by rw [hpc]; rfl

/-! ## A byte stored where the next fetch reads (R64) -/

theorem fetch_head? {s : State} (h : s.pc.toNat < 256) :
    s.fetch.head? = some (s.mem.read s.pc.toNat) := by
  rw [fetch_of_lt h, List.head?_cons]

/-- Settles O50: PUSH stores at the address its advance reaches (`pushResult`), which is the decremented
SP and so an address of MEM, and the next fetch reads that byte first. -/
theorem nextFetchSeesPushedByte : Obligations.NextFetchSeesPushedByte := by
  unfold Obligations.NextFetchSeesPushedByte
  intro s ra a rest hr hwf hd ha hsp
  obtain ⟨-, hpush, -⟩ := pushResult
  obtain ⟨t, ht, -, -, hload, -, htpc, -⟩ := hpush s ra a ha hwf
  obtain ⟨-, hfit, -⟩ := fetch_decoded hd
  have hpc : t.pc.toNat = (s.readReg 7 - 1#8).toNat := by
    rw [htpc, hsp]
    exact advance_toNat hfit
  refine ⟨t, (step_of_decoded hr hd).trans ht, ?_⟩
  rw [fetch_head? (hpc ▸ BitVec.isLt _), hpc, ← load_eq, hload]

end Sys2Proof.Machine
end

section
/-! PROOFS. The stop record (60_exceptions.md R220, R221): what each cause records, and that the record is
legal after every instruction and every rejected fetch. -/

namespace Sys2Proof.Machine

/-! ## The record of each cause -/

variable {s : State}

theorem stopRecord_raise_unknown (hpc : s.pc.toNat ≤ 255)
    (hA : fieldA (s.mem.read s.pc.toNat) = 0) (hop : s.mem.read s.pc.toNat ∉ tableOpcodes) :
    StopRecord (s.raise (.unknownInstruction (s.mem.read s.pc.toNat))) := by
  have hvalue := zext9_toNat (s.mem.read s.pc.toNat)
  simp only [StopRecord, raise_stopKind, raise_stopValue]
  exact ⟨rfl, hpc, rfl, hvalue, hA, hop⟩

theorem stopRecord_raise_unsupported (hpc : s.pc.toNat ≤ 255)
    (hA : fieldA (s.mem.read s.pc.toNat) = 1) (hop : s.mem.read s.pc.toNat ∉ aluOpcodes) :
    StopRecord (s.raise (.unsupportedAluOperation (s.mem.read s.pc.toNat))) := by
  have hvalue := zext9_toNat (s.mem.read s.pc.toNat)
  simp only [StopRecord, raise_stopKind, raise_stopValue]
  exact ⟨rfl, hpc, rfl, hvalue, hA, hop⟩

theorem stopRecord_raise_fetch (hpc : s.pc.toNat = 256) :
    StopRecord (s.raise (.outOfRangeAccess .fetch s.pc)) := by
  simp only [StopRecord, raise_stopKind, raise_stopValue]
  exact ⟨rfl, .inl ⟨rfl, hpc, hpc⟩⟩

theorem stopRecord_raise_operand (h : fieldN (s.mem.read s.pc.toNat) ≥ 1 ∧ s.pc.toNat = 255 ∨
    fieldN (s.mem.read s.pc.toNat) ≥ 2 ∧ s.pc.toNat = 254) :
    StopRecord (s.raise (.outOfRangeAccess .operand 256#9)) := by
  simp only [StopRecord, raise_stopKind, raise_stopValue]
  exact ⟨rfl, .inr (.inl ⟨rfl, rfl, h⟩)⟩

theorem stopRecord_raise_returnAddress (hpc : s.pc.toNat = 254)
    (hop : s.mem.read s.pc.toNat = Opcode.call) :
    StopRecord (s.raise (.outOfRangeAccess .returnAddress 256#9)) := by
  simp only [StopRecord, raise_stopKind, raise_stopValue]
  exact ⟨rfl, .inr (.inr (.inr ⟨rfl, rfl, hpc, hop⟩))⟩

/-- The register that a check finds is the instruction's first bad one (R107). -/
theorem firstAboveSeven_eq_badRegister (i : Instr) : firstAboveSeven i.regOperands = i.badRegister := by
  simp only [firstAboveSeven, Instr.badRegister, namesRegister, ← decide_not, Nat.not_le]

theorem stopRecord_registerFault {i : Instr} {rest : List Byte} {x : Byte}
    (hd : decode s.fetch = .ok (i, rest)) (hx : firstAboveSeven i.regOperands = some x) :
    StopRecord (registerFault s x) := by
  have habove : 7 < x.toNat := by simpa using List.find?_some hx
  have hbyte := x.isLt
  have hbad : i.badRegister.map BitVec.toNat = some x.toNat := by
    rw [← firstAboveSeven_eq_badRegister, hx, Option.map_some]
  simp only [StopRecord, raise_stopKind, raise_stopValue, Cause.value, zext9_toNat]
  exact ⟨rfl, .inr (.inr (.inl ⟨rfl, by omega, by omega, i, opcodeInstr_of_decoded hd, hbad⟩))⟩

theorem stopRecord_raise_divideByZero (hpc : s.pc.toNat ≤ 253)
    (hop : s.mem.read s.pc.toNat = Opcode.div)
    (hzero : ∃ b : RegIndex, b.val = (s.mem.read (s.pc.toNat + 2)).toNat ∧ s.readReg b = 0#8) :
    StopRecord (s.raise (.divideByZero Opcode.div)) := by
  simp only [StopRecord, raise_stopKind, raise_stopValue]
  exact ⟨rfl, hpc, rfl, rfl, hop, hzero⟩

/-- HLT leaves PC past its opcode (R160). -/
theorem stopRecord_halt {rest : List Byte} (hd : decode s.fetch = .ok (.hlt, rest))
    (hinfo : s.stopInfo = 0#12) : StopRecord (s.halt.advancePc 1) := by
  obtain ⟨-, hfit, hop, -⟩ := fetch_decoded hd
  have hpc : (s.pc + BitVec.ofNat 9 1).toNat = s.pc.toNat + 1 := advance_toNat hfit
  have hread : (s.halt.advancePc 1).mem.read ((s.halt.advancePc 1).pc.toNat - 1) = 0x01#8 := by
    rw [advancePc_pc, halt_pc, hpc]
    exact hop
  exact ⟨rfl, hinfo, by rw [advancePc_pc, halt_pc, hpc]; omega, hread⟩

/-- Row by row, a legal record has a code of R220, which is 0 exactly while the state runs. -/
theorem stopRecord_code (h : StopRecord s) :
    (s.running = true ↔ s.stopCause.toNat = 0) ∧ s.stopCause.toNat ≤ 5 := by
  unfold StopRecord at h
  split at h <;> simp_all

/-! ## The stop record after a step -/

/-- What a rejected fetch or opcode records (R104, R105, R112, R114). -/
theorem stopRecord_of_rejected {r : Reject} (hpc : s.pc.toNat ≤ 256)
    (hd : decode s.fetch = .error r) : StopRecord (s.raise (rejectCause s.pc r)) := by
  rcases fetch_rejected hd with ⟨hhigh, rfl⟩ | ⟨hlow, hmiss, rfl⟩ | ⟨hfit, hop, rfl⟩
  · exact stopRecord_raise_fetch (by omega)
  · rw [operandsFetched_eq_fieldN] at hmiss
    rw [rejectCause, pc_add_ofNat, Nat.add_sub_cancel' (by omega)]
    exact stopRecord_raise_operand (by omega)
  · obtain ⟨halu, htable⟩ := (opcodeInstr_eq_none_iff _ 0#8 0#8).1 (opcodeInstr_eq_none hop _ _)
    by_cases hA : fieldA (s.mem.read s.pc.toNat) = 1
    · rw [if_pos ((aluFlag_iff_fieldA _).2 hA)]
      exact stopRecord_raise_unsupported (by omega) hA halu
    · have hA0 : fieldA (s.mem.read s.pc.toNat) = 0 := by rw [fieldA] at hA ⊢; omega
      rw [if_neg (mt (aluFlag_iff_fieldA _).1 hA)]
      exact stopRecord_raise_unknown (by omega) hA0 htable

/-- What a cause of CALL or DIV records (R190, R133). -/
theorem stopRecord_of_instrCauses {i : Instr} {rest : List Byte} {c : Cause}
    (hd : decode s.fetch = .ok (i, rest)) (hc : instrCauses s i = [c]) : StopRecord (s.raise c) := by
  obtain ⟨-, hfit, hop, hops⟩ := fetch_decoded hd
  cases i with
  | call ra =>
    obtain ⟨hhigh, rfl, -⟩ := causeIf_eq_cons.1 hc
    have hpc : s.pc.toNat = 254 := by rw [operands_call, List.length_singleton] at hfit; omega
    rw [pc_add_ofNat, hpc]
    exact stopRecord_raise_returnAddress hpc hop
  | div ra rb =>
    obtain ⟨hzero, rfl, -⟩ := causeIf_eq_cons.1 hc
    obtain ⟨-, hrb⟩ : ra = s.mem.read (s.pc.toNat + 1) ∧ rb = s.mem.read (s.pc.toNat + 2) := by
      simpa [List.range_succ] using hops
    exact stopRecord_raise_divideByZero (by simp at hfit; omega) hop (hrb ▸ hzero)
  | _ => cases hc

/-- After a decoded instruction the record is the one it started with, HLT's, or its cause's (R228). -/
theorem stopRecord_of_decoded {t : State} {i : Instr} {rest : List Byte} (hs : StopRecord s)
    (hr : s.running = true) (hd : decode s.fetch = .ok (i, rest)) (h : exec i s = .next t) :
    StopRecord t := by
  obtain ⟨hcause, hinfo⟩ := stopRecord_running hs hr
  cases hregs : firstAboveSeven i.regOperands with
  | some x =>
    obtain rfl : t = registerFault s x :=
      Host.Outcome.next.inj (h.symm.trans (exec_registerFault hregs s))
    exact stopRecord_registerFault hd hregs
  | none =>
    rcases exec_wellFormed_cases s (wellFormed_of_firstAboveSeven hregs) with
      ⟨-, u, hu, hdone⟩ | ⟨c, hc, -, hraise⟩
    · obtain rfl : t = u := Host.Outcome.next.inj (h.symm.trans hu)
      rcases hdone.status with ⟨rfl, rfl⟩ | ⟨hrun, hkcause, hkinfo⟩
      · exact stopRecord_halt hd hinfo
      · exact stopRecord_of_running (hrun.trans hr) (hkcause.trans hcause) (hkinfo.trans hinfo)
    · obtain rfl : t = s.raise c := Host.Outcome.next.inj (h.symm.trans hraise)
      exact stopRecord_of_instrCauses hd hc

end Sys2Proof.Machine
end

section
/-! PROOFS. The invariant of the machine (10_state.md R11, R26, R30): it holds in every start state, and every
step keeps it. -/

namespace Sys2Proof.Machine

/-! ## Start states (R261) -/

/-- Settles O53: an image that fits is a canonical memory (`Memory.ofImage_wf`), the other rows are those
of reset, and a longer image gives no state. -/
theorem startStatesMeetInvariant : Obligations.StartStatesMeetInvariant := by
  unfold Obligations.StartStatesMeetInvariant
  intro img s hs
  rcases Nat.lt_or_ge 256 img.length with hlong | hfits
  · cases (create_of_too_long hlong).symm.trans hs
  · obtain rfl : _ = s := Option.some.inj ((create_of_fits hfits).symm.trans hs)
    exact ⟨Memory.ofImage_wf (by omega), Nat.zero_le 256, .inl rfl, rfl, rfl⟩

theorem create_nil : State.create [] = some State.reset := create_of_fits (Nat.zero_le _)

/-- Settles O52: reset is the start state of the empty image. -/
theorem resetMeetsInvariant : Obligations.ResetMeetsInvariant := by
  unfold Obligations.ResetMeetsInvariant
  exact startStatesMeetInvariant [] State.reset create_nil

/-- Settles O3: the opcode 0 that the empty image's first fetch reads is on neither list, and its A bit
is clear (`illegalOpcodeRaises`). -/
theorem emptyImageStopsOnOpcodeZero : Obligations.EmptyImageStopsOnOpcodeZero := by
  unfold Obligations.EmptyImageStopsOnOpcodeZero
  obtain ⟨-, hunknown⟩ := illegalOpcodeRaises State.reset 0#8 rfl (Memory.read_nil _) (by decide)
  exact ⟨create_nil, hunknown rfl (by decide)⟩

/-! ## Memory, PC and FL after an instruction -/

theorem exec_mem_wf {i : Instr} {s t : State} (hwf : s.mem.wf) (h : exec i s = .next t) : t.mem.wf := by
  rcases (exec_frame h).stored with hmem | ⟨v, hmem⟩
  · exact hmem ▸ hwf
  · exact hmem ▸ Memory.store_wf hwf _ v

/-- CMP sets one of E, G and L (`compareFlags_cases`), and every other instruction keeps FL. -/
theorem exec_fl_cases {i : Instr} {s t : State} (h : exec i s = .next t) :
    t.fl = s.fl ∨ t.fl = 1#8 ∨ t.fl = 2#8 ∨ t.fl = 4#8 := by
  by_cases hcmp : ∃ ra rb, i = .cmp ra rb
  · obtain ⟨ra, rb, rfl⟩ := hcmp
    obtain ⟨a, b, -, -, rfl⟩ | ⟨-, rfl⟩ | ⟨-, -, rfl⟩ := execCmp_next h
    · exact .inr ((compareFlags_cases _ _).imp And.right (Or.imp And.right And.right))
    · exact .inl rfl
    · exact .inl rfl
  · exact .inl (exec_keeps_fl (fun ra rb hi => hcmp ⟨ra, rb, hi⟩) h)

/-- An instruction that was fetched leaves PC at most 256: it advances by its length, goes to a byte
address, or raises (R26, R110, R111). -/
theorem exec_pc_le {s t : State} {i : Instr} {rest : List Byte} (hr : s.running = true)
    (hd : decode s.fetch = .ok (i, rest)) (h : exec i s = .next t) : t.pc.toNat ≤ 256 := by
  obtain ⟨-, hfit, -, -⟩ := fetch_decoded hd
  rcases exec_first_cause i s with ⟨c, -, hraise⟩ | ⟨-, u, hu, hdone⟩
  · obtain rfl : t = s.raise c := Host.Outcome.next.inj (h.symm.trans hraise)
    rw [raise_pc]
    omega
  · obtain rfl : t = u := Host.Outcome.next.inj (h.symm.trans hu)
    by_cases hP : fieldP i.opcode = 0
    · rw [hdone.pc hP, advance_toNat hfit]
      exact hfit
    · have hP1 : fieldP i.opcode = 1 := by rw [fieldP] at hP ⊢; omega
      have htrun : t.running = true := by
        rcases hdone.status with ⟨rfl, -⟩ | ⟨hrun, -⟩
        · exact absurd rfl hP
        · exact hrun.trans hr
      obtain ⟨hnot, htaken⟩ :=
        pcSetterTargetsAreBytes s t i rest hr hd hP1 ((step_of_decoded hr hd).trans h) htrun
      by_cases hjump : JumpNotTaken s i
      · have hlen : i.operands.length = 1 := by
          obtain ⟨ra, rfl, -⟩ | ⟨ra, rfl, -⟩ := hjump <;> rfl
        have hpc := hnot hjump
        omega
      · have hpc := htaken hjump
        omega

/-! ## The invariant along a run -/

/-- Settles O54: a rejected fetch changes the stop status alone, and its record is
`stopRecord_of_rejected`; a decoded instruction keeps each part by `exec_mem_wf`, `exec_pc_le`,
`exec_fl_cases` and `stopRecord_of_decoded`. -/
theorem stepKeepsInvariant : Obligations.StepKeepsInvariant := by
  unfold Obligations.StepKeepsInvariant
  intro s t hinv hstep
  obtain ⟨hr, ⟨i, hd, he⟩ | ⟨r, hd, rfl⟩⟩ := step_cases hstep
  · have hflags : t.fl = 0#8 ∨ t.fl = 1#8 ∨ t.fl = 2#8 ∨ t.fl = 4#8 := by
      rcases exec_fl_cases he with hkept | hcompared
      · exact hkept ▸ hinv.flags
      · exact .inr hcompared
    exact ⟨exec_mem_wf hinv.memory he, exec_pc_le hr hd he, hflags,
      stopRecord_of_decoded hinv.stop hr hd he⟩
  · exact ⟨hinv.memory, hinv.pc, hinv.flags, stopRecord_of_rejected hinv.pc hd⟩

theorem reachable_inv {s : State} (h : Reachable s) : s.Inv := by
  induction h with
  | start hcreate => exact startStatesMeetInvariant _ _ hcreate
  | step _ hstep ih => exact stepKeepsInvariant _ _ ih hstep

/-- Settles O55: the invariant holds along every run (`reachable_inv`), and the rest is what its stop
record says of STOPCAUSE (`stopRecord_code`). -/
theorem reachableStatesMeetInvariant : Obligations.ReachableStatesMeetInvariant := by
  unfold Obligations.ReachableStatesMeetInvariant
  intro s hs
  have hinv := reachable_inv hs
  obtain ⟨hrunning, hle⟩ := stopRecord_code hinv.stop
  exact ⟨hinv, hrunning.trans (BitVec.toNat_inj (y := 0#3)), hle⟩

end Sys2Proof.Machine
end

section
/-! PROOFS. What the host reads between steps (70_reset_and_hazards.md R266, 60_exceptions.md R237) and how
it loads a program (30_encoding.md R90 to R94). -/

namespace Sys2Proof.Machine

/-! ## Windows of memory (R237, R266) -/

theorem memWindow_length (s : State) (base n : Nat) : (s.memWindow base n).length = n := by
  rw [State.memWindow, List.length_map, List.length_range]

theorem memWindow_getElem? (s : State) (base : Nat) {n k : Nat} (h : k < n) :
    (s.memWindow base n)[k]? = some (s.mem.read (base + k)) := by
  rw [State.memWindow, List.getElem?_map, List.getElem?_range h, Option.map_some]

/-- Settles O56: the view is the window of all 256 addresses, the stack window that of 8 from 236. -/
theorem viewsShowMemory : Obligations.ViewsShowMemory := by
  unfold Obligations.ViewsShowMemory
  refine fun s => ⟨memWindow_length s 0 256, memWindow_length s 236 8, fun k hk => ?_,
    fun k hk => memWindow_getElem? s 236 hk⟩
  have hview := memWindow_getElem? s 0 hk
  rwa [Nat.zero_add] at hview

/-! ## The digits of a byte (R91) -/

/-- A bit as the digit that the text writes. -/
abbrev bitDigit (b : Bool) : Char := if b then '1' else '0'

theorem binaryDigit_bitDigit (b : Bool) : binaryDigit (bitDigit b) = some b.toNat := by
  cases b <;> rfl

/-- Reading the low `n` bits of a byte, the most significant first, adds them to what was read. -/
theorem binaryNumber_lowBits (v : Byte) (n acc : Nat) :
    binaryNumber acc ((List.range n).map fun k => bitDigit (v.getLsbD (n - 1 - k))) =
      some (acc * 2 ^ n + v.toNat % 2 ^ n) := by
  induction n generalizing acc with
  | zero => simp [binaryNumber, Nat.mod_one]
  | succ n ih =>
    have htail : (List.range n).map (fun k => bitDigit (v.getLsbD (n + 1 - 1 - (k + 1)))) =
        (List.range n).map fun k => bitDigit (v.getLsbD (n - 1 - k)) :=
      List.map_congr_left fun k _ => by rw [Nat.add_sub_cancel, Nat.sub_sub, Nat.add_comm 1 k]
    have hbit : (v.getLsbD n).toNat = v.toNat / 2 ^ n % 2 := by
      rw [← BitVec.testBit_toNat, Nat.toNat_testBit]
    rw [List.range_succ_eq_map, List.map_cons, List.map_map, binaryNumber, binaryDigit_bitDigit]
    simp only [Function.comp_def, Nat.succ_eq_add_one, htail, ih, Nat.mod_pow_succ]
    rw [Nat.sub_zero, Nat.add_sub_cancel, hbit]
    refine congrArg some ?_
    calc (2 * acc + v.toNat / 2 ^ n % 2) * 2 ^ n + v.toNat % 2 ^ n
      _ = acc * (2 * 2 ^ n) + (2 ^ n * (v.toNat / 2 ^ n % 2) + v.toNat % 2 ^ n) := by
        rw [Nat.add_mul, Nat.mul_comm 2 acc, Nat.mul_assoc, Nat.mul_comm (_ % 2), Nat.add_assoc]
      _ = acc * 2 ^ (n + 1) + (v.toNat % 2 ^ n + 2 ^ n * (v.toNat / 2 ^ n % 2)) := by
        rw [Nat.pow_succ', Nat.add_comm (2 ^ n * _)]

theorem parseByte_byteDigits (v : Byte) : parseByte (byteDigits v) = some v := by
  have hnumber : binaryNumber 0 (byteDigits v) = some (0 * 2 ^ 8 + v.toNat % 2 ^ 8) :=
    binaryNumber_lowBits v 8 0
  rw [Nat.zero_mul, Nat.zero_add, Nat.mod_eq_of_lt v.isLt] at hnumber
  rw [parseByte, if_pos (by simp [byteDigits]), hnumber, Option.map_some, BitVec.ofNat_toNat,
    BitVec.setWidth_eq]

theorem mem_byteDigits {v : Byte} {c : Char} (h : c ∈ byteDigits v) : c = '0' ∨ c = '1' := by
  obtain ⟨k, -, rfl⟩ := List.mem_map.1 h
  split
  · exact .inr rfl
  · exact .inl rfl

theorem byteDigits_ne_nil (v : Byte) : byteDigits v ≠ [] := by simp [byteDigits]

/-! ## The lines of a text (R90) -/

/-- A line without a newline in it, then a newline, is the first line of a text. -/
theorem splitLines_append_newline {line : List Char} (h : '\n' ∉ line) (rest : List Char) :
    splitLines (line ++ '\n' :: rest) = line :: splitLines rest := by
  induction line with
  | nil => simp [splitLines]
  | cons c cs ih =>
    obtain ⟨hc, hcs⟩ : '\n' ≠ c ∧ '\n' ∉ cs := by simpa using h
    rw [List.cons_append, splitLines, if_neg (Ne.symm hc), ih hcs]

theorem splitLines_imageText (img : List Byte) :
    splitLines (imageText img) = img.map byteDigits ++ [[]] := by
  induction img with
  | nil => rfl
  | cons v vs ih =>
    have hnl : '\n' ∉ byteDigits v := fun h => by
      rcases mem_byteDigits h with h | h <;> exact absurd h (by decide)
    rw [imageText, splitLines_append_newline hnl, ih, List.map_cons, List.cons_append]

/-- Nothing is removed from the front of a line whose characters are no white space. -/
theorem dropWhile_isWhitespace {line : List Char} (h : ∀ c ∈ line, c.isWhitespace = false) :
    line.dropWhile Char.isWhitespace = line := by
  cases line with
  | nil => rfl
  | cons c cs => rw [List.dropWhile_cons, h c List.mem_cons_self, if_neg Bool.false_ne_true]

theorem trimSpace_eq_self {line : List Char} (h : ∀ c ∈ line, c.isWhitespace = false) :
    trimSpace line = line := by
  have hrev : ∀ c ∈ line.reverse, c.isWhitespace = false := fun c hc => h c (List.mem_reverse.1 hc)
  rw [trimSpace, dropWhile_isWhitespace h, dropWhile_isWhitespace hrev, List.reverse_reverse]

/-- A line of digits has no comment and no white space. -/
theorem strip_byteDigits (v : Byte) : trimSpace (stripComment (byteDigits v)) = byteDigits v := by
  have hcomment : stripComment (byteDigits v) = byteDigits v := by
    have hdigits : ∀ c ∈ byteDigits v, decide (c ≠ '#') = true := fun c hc => by
      rcases mem_byteDigits hc with rfl | rfl <;> rfl
    have htake := List.takeWhile_append_of_pos hdigits (l₂ := [])
    rwa [List.takeWhile_nil, List.append_nil] at htake
  rw [hcomment]
  refine trimSpace_eq_self fun c hc => ?_
  rcases mem_byteDigits hc with rfl | rfl <;> rfl

theorem contentLines_imageText (img : List Byte) :
    contentLines (imageText img) = img.map byteDigits := by
  have hlines : (img.map byteDigits).map (fun line => trimSpace (stripComment line)) =
      img.map byteDigits := by
    rw [List.map_map]
    exact List.map_congr_left fun v _ => strip_byteDigits v
  have hkept : (img.map byteDigits).filter (fun line => line ≠ []) = img.map byteDigits := by
    refine List.filter_eq_self.2 fun line hline => ?_
    obtain ⟨v, -, rfl⟩ := List.mem_map.1 hline
    exact decide_eq_true (byteDigits_ne_nil v)
  rw [contentLines, splitLines_imageText, List.map_append, List.filter_append, hlines, hkept]
  exact List.append_nil _

/-! ## The image a text stands for (R92, R93) -/

theorem mapM_parseByte_byteDigits (img : List Byte) :
    (img.map byteDigits).mapM parseByte = some img := by
  induction img with
  | nil => rfl
  | cons v vs ih => rw [List.map_cons, List.mapM_cons, parseByte_byteDigits, ih]; rfl

/-- Where every line is a byte, there are as many bytes as lines, and no line is rejected. -/
theorem mapM_parseByte_some {lines : List (List Char)} {img : List Byte}
    (h : lines.mapM parseByte = some img) :
    img.length = lines.length ∧ ∀ line ∈ lines, parseByte line ≠ none := by
  induction lines generalizing img with
  | nil =>
    cases h
    exact ⟨rfl, fun line hline => absurd hline List.not_mem_nil⟩
  | cons line lines ih =>
    rw [List.mapM_cons] at h
    cases hline : parseByte line with
    | none => rw [hline] at h; cases h
    | some v =>
      cases hlines : lines.mapM parseByte with
      | none => rw [hline, hlines] at h; cases h
      | some vs =>
        rw [hline, hlines] at h
        obtain rfl : v :: vs = img := Option.some.inj h
        obtain ⟨hlen, hall⟩ := ih hlines
        refine ⟨by rw [List.length_cons, List.length_cons, hlen], ?_⟩
        exact List.forall_mem_cons.2 ⟨by rw [hline]; exact Option.some_ne_none v, hall⟩

/-- A text that loads is at most 256 lines, each of them a byte. -/
theorem parseProgram_ok {text : List Char} {img : List Byte} (h : parseProgram text = .ok img) :
    (contentLines text).length ≤ 256 ∧ ∀ line ∈ contentLines text, parseByte line ≠ none := by
  unfold parseProgram at h
  split at h
  · cases h
  · next bytes hbytes =>
    obtain ⟨hlen, hall⟩ := mapM_parseByte_some hbytes
    split at h
    · next hfits => exact ⟨hlen ▸ hfits, hall⟩
    · cases h

/-- The only error of a load is ProgramLoadParseError. -/
theorem parseProgram_error {text : List Char} {e : HostError} (h : parseProgram text = .error e) :
    e = .programLoadParseError := by
  unfold parseProgram at h
  split at h
  · exact (Except.error.inj h).symm
  · split at h
    · cases h
    · exact (Except.error.inj h).symm

theorem boot_of_unloadable {text : List Char} (arg : List Char)
    (h : ∀ img, parseProgram text ≠ .ok img) : boot [arg] text = .error .programLoadParseError := by
  cases hp : parseProgram text with
  | ok img => exact absurd hp (h img)
  | error e =>
    obtain rfl := parseProgram_error hp
    simp only [boot, hp]

/-- A character that is no binary digit ends the reading of a number. -/
theorem binaryNumber_eq_none {line : List Char} (h : ∃ c ∈ line, c ≠ '0' ∧ c ≠ '1') (acc : Nat) :
    binaryNumber acc line = none := by
  induction line generalizing acc with
  | nil =>
    obtain ⟨c, hc, -⟩ := h
    exact absurd hc List.not_mem_nil
  | cons d ds ih =>
    rw [binaryNumber]
    cases hd : binaryDigit d with
    | none => rfl
    | some k =>
      obtain ⟨c, hc, h0, h1⟩ := h
      rcases List.mem_cons.1 hc with rfl | hc
      · simp [binaryDigit, h0, h1] at hd
      · exact ih ⟨c, hc, h0, h1⟩ _

theorem parseByte_eq_none {line : List Char}
    (h : line.length ≠ 8 ∨ ∃ c ∈ line, c ≠ '0' ∧ c ≠ '1') : parseByte line = none := by
  rw [parseByte]
  rcases h with hlen | hdigit
  · rw [if_neg hlen]
  · rw [binaryNumber_eq_none hdigit, Option.map_none, ite_self]

/-! ## Boot (R94, R264) -/

/-- Settles O57: the lines of the text are the digits of each byte (`contentLines_imageText`), each line
reads as its byte (`parseByte_byteDigits`), and CREATE places the image. -/
theorem loadedTextGivesImage : Obligations.LoadedTextGivesImage := by
  unfold Obligations.LoadedTextGivesImage
  intro img arg hfits
  have hparse : parseProgram (imageText img) = .ok img := by
    rw [parseProgram, contentLines_imageText, mapM_parseByte_byteDigits]
    exact if_pos hfits
  refine ⟨hparse, _, create_of_fits hfits, ?_⟩
  simp only [boot, hparse, create_of_fits hfits]

/-- Settles O58: a text that loads has no bad line and at most 256 lines (`parseProgram_ok`), and only a
command line of one argument reaches the load. -/
theorem badLoadStartsNothing : Obligations.BadLoadStartsNothing := by
  unfold Obligations.BadLoadStartsNothing
  refine ⟨fun text line arg hline hbad => ?_, fun text arg hlong => ?_, fun args text hargs => ?_⟩
  · refine boot_of_unloadable arg fun img hp => ?_
    obtain ⟨-, hall⟩ := parseProgram_ok hp
    exact hall line hline (parseByte_eq_none hbad)
  · refine boot_of_unloadable arg fun img hp => ?_
    obtain ⟨hle, -⟩ := parseProgram_ok hp
    omega
  · match args with
    | [] => rfl
    | [_] => exact absurd rfl hargs
    | _ :: _ :: _ => rfl

end Sys2Proof.Machine
end
